-- ==== Sys2Proof/Word.lean ====
section
/-! DEFINITION. The word types of the machine (00_scope.md R8: every value is unsigned, bit 0 is the least
significant bit). -/
namespace Sys2Proof

/-- A byte: the width of a general register, a timer and a memory cell (00_scope.md R5, `XLEN`). -/
abbrev Byte := BitVec 8

/-- A 16-bit word: PC, I, a stack slot, an instruction word (00_scope.md R5). -/
abbrev Word := BitVec 16

/-- A 4-bit field of the instruction word (GLOSSARY, "Nibble"); it names a general register, a key or a row count.
Every value is valid (10_state.md R22). -/
abbrev Nibble := BitVec 4

/-- A 12-bit immediate address `nnn` (30_encoding.md R91). -/
abbrev Addr12 := BitVec 12

end Sys2Proof
end

