-- ==== Sys2Proof/Config.lean ====
section
/-! DEFINITION. What an implementation fixes: the parameters of 00_scope.md R5, and the one open value of the spec,
the random byte (48_random.md R210). The font table is in Machine/Memory.lean, beside the reset contents it is part of. -/
namespace Sys2Proof.Config

/-- `MEM_SIZE`: bytes of memory, addresses 0..4095 (00_scope.md R5). -/
@[simp] abbrev memSize : Nat := 4096

/-- `PROG_BASE`: the load address of the program and the reset value of PC (00_scope.md R5). -/
@[simp] abbrev progBase : Nat := 0x200

/-- `FONT_SIZE`: bytes of font, addresses 0x000..0x04F (00_scope.md R5). -/
@[simp] abbrev fontSize : Nat := 80

/-- `GLYPH_BYTES`: bytes of a font glyph (00_scope.md R5). -/
@[simp] abbrev glyphBytes : Nat := 5

/-- `STACK_DEPTH`: entries of the call stack (00_scope.md R5). -/
@[simp] abbrev stackDepth : Nat := 16

/-- `DISP_W`: display columns (00_scope.md R5). -/
@[simp] abbrev dispW : Nat := 64

/-- `DISP_H`: display rows (00_scope.md R5). -/
@[simp] abbrev dispH : Nat := 32

/-- FREE VALUE. Byte `k` of the host's random source number `id` (48_random.md R210: the machine assumes nothing about
the sequence, "not that two machines see the same sequence"). It has no body, so nothing can be proved of it but that it
is a byte. Log 3. -/
opaque rnd : (id k : Nat) → Byte

end Sys2Proof.Config
end

