-- ==== Sys2Proof/Syntax.lean ====
section
/-! DEFINITION. The instructions: one constructor per row of spec/opcode_table.json, in the table's order
(30_encoding.md R95). Operands are the fields of R91 at their own widths; every value of a field is valid (R93). -/
namespace Sys2Proof

/-- The 34 instructions. An unknown word is not one of them: it is the decoder's fallback (30_encoding.md R98). -/
inductive Instr where
  /-- `CLS`, 00E0 (R140). -/
  | cls
  /-- `RET`, 00EE (R141). -/
  | ret
  /-- `JP nnn`, 1nnn (R142). -/
  | jp (nnn : Addr12)
  /-- `CALL nnn`, 2nnn (R143). -/
  | call (nnn : Addr12)
  /-- `SE Vx, nn`, 3xnn (R150). -/
  | seImm (x : Nibble) (nn : Byte)
  /-- `SNE Vx, nn`, 4xnn (R151). -/
  | sneImm (x : Nibble) (nn : Byte)
  /-- `SE Vx, Vy`, 5xy0 (R152). -/
  | seReg (x y : Nibble)
  /-- `LD Vx, nn`, 6xnn (R160). -/
  | ldImm (x : Nibble) (nn : Byte)
  /-- `ADD Vx, nn`, 7xnn (R161). -/
  | addImm (x : Nibble) (nn : Byte)
  /-- `LD Vx, Vy`, 8xy0 (R162). -/
  | ldReg (x y : Nibble)
  /-- `OR Vx, Vy`, 8xy1 (R163). -/
  | or (x y : Nibble)
  /-- `AND Vx, Vy`, 8xy2 (R164). -/
  | and (x y : Nibble)
  /-- `XOR Vx, Vy`, 8xy3 (R165). -/
  | xor (x y : Nibble)
  /-- `ADD Vx, Vy`, 8xy4 (R166). -/
  | addReg (x y : Nibble)
  /-- `SUB Vx, Vy`, 8xy5 (R167). -/
  | sub (x y : Nibble)
  /-- `SHR Vx`, 8xy6, the y field ignored (R168, R97). -/
  | shr (x : Nibble)
  /-- `SUBN Vx, Vy`, 8xy7 (R169). -/
  | subn (x y : Nibble)
  /-- `SHL Vx`, 8xyE, the y field ignored (R170, R97). -/
  | shl (x : Nibble)
  /-- `SNE Vx, Vy`, 9xy0 (R153). -/
  | sneReg (x y : Nibble)
  /-- `LD I, nnn`, Annn (R181). -/
  | ldI (nnn : Addr12)
  /-- `JP V0, nnn`, Bnnn (R144). -/
  | jpV0 (nnn : Addr12)
  /-- `RND Vx, nn`, Cxnn (R211). -/
  | rnd (x : Nibble) (nn : Byte)
  /-- `DRW Vx, Vy, n`, Dxyn (R202). -/
  | drw (x y n : Nibble)
  /-- `SKP Vx`, Ex9E (R196). -/
  | skp (x : Nibble)
  /-- `SKNP Vx`, ExA1 (R197). -/
  | sknp (x : Nibble)
  /-- `LD Vx, DT`, Fx07 (R190). -/
  | ldVxDt (x : Nibble)
  /-- `LD Vx, K`, Fx0A (R198). -/
  | ldVxK (x : Nibble)
  /-- `LD DT, Vx`, Fx15 (R191). -/
  | ldDtVx (x : Nibble)
  /-- `LD ST, Vx`, Fx18 (R192). -/
  | ldStVx (x : Nibble)
  /-- `ADD I, Vx`, Fx1E (R182). -/
  | addI (x : Nibble)
  /-- `LD F, Vx`, Fx29 (R183). -/
  | ldF (x : Nibble)
  /-- `LD B, Vx`, Fx33 (R184). -/
  | ldB (x : Nibble)
  /-- `LD [I], Vx`, Fx55 (R185). -/
  | ldMemVx (x : Nibble)
  /-- `LD Vx, [I]`, Fx65 (R186). -/
  | ldVxMem (x : Nibble)
  deriving DecidableEq, Repr

end Sys2Proof
end

