-- ==== Sys2Proof/WellFormed.lean ====
section
/-! DEFINITION. The checks on what a program is made of.
An instruction needs none: each operand has the width of its field and every value of a field is valid (10_state.md
R22, 30_encoding.md R93). A program image has one, its size (49_host_operations.md R226). Even jump targets (70_reset_and_hazards.md R284) are a
program's obligation, not a check of the machine: Safety.lean states it. -/
namespace Sys2Proof

/-- Whether an instruction is well formed: always, because "an encoding is either one of the 34 instructions or
UNKNOWN" (30_encoding.md R99) and no field value is reserved (R93). -/
def Instr.wellFormed (_ : Instr) : Bool := true

/-- Whether a program image fits in memory from 0x200 on: at most 3584 bytes (49_host_operations.md R226; the bound is
the spec's decision D23). -/
def imageFits (image : List Byte) : Bool := decide (Config.progBase + image.length ≤ Config.memSize)

end Sys2Proof
end

