-- ==== Sys2Proof/Decode.lean ====
section
/-! DEFINITION. The field cut, the decoder and the encoder (30_encoding.md R90 to R98). The bit patterns and the
field positions are the spec's, which marks them as general knowledge (log 5, log 6). -/
namespace Sys2Proof

/-! ## The fields of a word (30_encoding.md R91) -/

/-- `op = w[15:12]`, the family selector. -/
def opField (w : Word) : Nibble := w.extractLsb' 12 4
/-- `x = w[11:8]`. -/
def xField (w : Word) : Nibble := w.extractLsb' 8 4
/-- `y = w[7:4]`. -/
def yField (w : Word) : Nibble := w.extractLsb' 4 4
/-- `n = w[3:0]`. -/
def nField (w : Word) : Nibble := w.extractLsb' 0 4
/-- `nn = w[7:0]`. -/
def nnField (w : Word) : Byte := w.extractLsb' 0 8
/-- `nnn = w[11:0]`. -/
def nnnField (w : Word) : Addr12 := w.extractLsb' 0 12

/-! ## Byte order (20_memory.md R60) -/

/-- The word whose high byte is `hi` (the byte at the lower address) and whose low byte is `lo`. -/
def wordOfBytes (hi lo : Byte) : Word := BitVec.ofNat 16 (hi.toNat * 256 + lo.toNat)
/-- The byte of a word that lies at the lower address. -/
def hiByte (w : Word) : Byte := w.extractLsb' 8 8
/-- The byte of a word that lies at the higher address. -/
def loByte (w : Word) : Byte := w.extractLsb' 0 8

/-! ## The decoder -/

/-- Family 0, format Z: all sixteen bits are fixed. -/
def decodeSys (w : Word) : Option Instr :=
  if w = 0x00E0#16 then some .cls else if w = 0x00EE#16 then some .ret else none

/-- Family 8, format XY, by the low nibble. -/
def decodeAlu (w : Word) : Option Instr :=
  match (nField w).toNat with
  | 0x0 => some (.ldReg (xField w) (yField w))
  | 0x1 => some (.or (xField w) (yField w))
  | 0x2 => some (.and (xField w) (yField w))
  | 0x3 => some (.xor (xField w) (yField w))
  | 0x4 => some (.addReg (xField w) (yField w))
  | 0x5 => some (.sub (xField w) (yField w))
  | 0x6 => some (.shr (xField w))
  | 0x7 => some (.subn (xField w) (yField w))
  | 0xE => some (.shl (xField w))
  | _ => none

/-- Family E, format X, by the low byte. -/
def decodeKey (w : Word) : Option Instr :=
  match (nnField w).toNat with
  | 0x9E => some (.skp (xField w))
  | 0xA1 => some (.sknp (xField w))
  | _ => none

/-- Family F, format X, by the low byte. -/
def decodeMisc (w : Word) : Option Instr :=
  match (nnField w).toNat with
  | 0x07 => some (.ldVxDt (xField w))
  | 0x0A => some (.ldVxK (xField w))
  | 0x15 => some (.ldDtVx (xField w))
  | 0x18 => some (.ldStVx (xField w))
  | 0x1E => some (.addI (xField w))
  | 0x29 => some (.ldF (xField w))
  | 0x33 => some (.ldB (xField w))
  | 0x55 => some (.ldMemVx (xField w))
  | 0x65 => some (.ldVxMem (xField w))
  | _ => none

/-- `decode(w)` (30_encoding.md R94): the instruction of a 16-bit word, `none` for UNKNOWN (R98). It depends on the
word alone. -/
def decodeWord (w : Word) : Option Instr :=
  match (opField w).toNat with
  | 0x0 => decodeSys w
  | 0x1 => some (.jp (nnnField w))
  | 0x2 => some (.call (nnnField w))
  | 0x3 => some (.seImm (xField w) (nnField w))
  | 0x4 => some (.sneImm (xField w) (nnField w))
  | 0x5 => if nField w = 0#4 then some (.seReg (xField w) (yField w)) else none
  | 0x6 => some (.ldImm (xField w) (nnField w))
  | 0x7 => some (.addImm (xField w) (nnField w))
  | 0x8 => decodeAlu w
  | 0x9 => if nField w = 0#4 then some (.sneReg (xField w) (yField w)) else none
  | 0xA => some (.ldI (nnnField w))
  | 0xB => some (.jpV0 (nnnField w))
  | 0xC => some (.rnd (xField w) (nnField w))
  | 0xD => some (.drw (xField w) (yField w) (nField w))
  | 0xE => decodeKey w
  | _ => decodeMisc w

/-- Why a list of bytes is no instruction. -/
inductive Reject where
  /-- Fewer than two bytes: an instruction is always one whole word (30_encoding.md R90). -/
  | truncated
  /-- The word matches no row of the opcode map: UNKNOWN (30_encoding.md R98). -/
  | unknownOpcode (word : Word)
  deriving DecidableEq, Repr

/-- The decoder on bytes: total, it answers the instruction with the bytes after it, or rejects by name. -/
def decodeBytes : List Byte → Except Reject (Instr × List Byte)
  | hi :: lo :: rest =>
    match decodeWord (wordOfBytes hi lo) with
    | some i => .ok (i, rest)
    | none => .error (.unknownOpcode (wordOfBytes hi lo))
  | _ => .error .truncated

/-! ## The encoder -/

/-- Format A: `op nnn`. -/
def packA (op : Nat) (nnn : Addr12) : Word := BitVec.ofNat 16 (op * 4096 + nnn.toNat)
/-- Format XI: `op x nn`; format X too, with the sub-opcode as `nn`. -/
def packXI (op : Nat) (x : Nibble) (nn : Byte) : Word := BitVec.ofNat 16 (op * 4096 + x.toNat * 256 + nn.toNat)
/-- Format XYN: `op x y n`; format XY too, with the sub-opcode as `n`. -/
def packXYN (op : Nat) (x y n : Nibble) : Word :=
  BitVec.ofNat 16 (op * 4096 + x.toNat * 256 + y.toNat * 16 + n.toNat)

/-- The word of an instruction (30_encoding.md R95). For the two shifts it is the canonical one, with y = 0 (R97). -/
def encode : Instr → Word
  | .cls => 0x00E0#16
  | .ret => 0x00EE#16
  | .jp nnn => packA 0x1 nnn
  | .call nnn => packA 0x2 nnn
  | .seImm x nn => packXI 0x3 x nn
  | .sneImm x nn => packXI 0x4 x nn
  | .seReg x y => packXYN 0x5 x y 0x0#4
  | .ldImm x nn => packXI 0x6 x nn
  | .addImm x nn => packXI 0x7 x nn
  | .ldReg x y => packXYN 0x8 x y 0x0#4
  | .or x y => packXYN 0x8 x y 0x1#4
  | .and x y => packXYN 0x8 x y 0x2#4
  | .xor x y => packXYN 0x8 x y 0x3#4
  | .addReg x y => packXYN 0x8 x y 0x4#4
  | .sub x y => packXYN 0x8 x y 0x5#4
  | .shr x => packXYN 0x8 x 0x0#4 0x6#4
  | .subn x y => packXYN 0x8 x y 0x7#4
  | .shl x => packXYN 0x8 x 0x0#4 0xE#4
  | .sneReg x y => packXYN 0x9 x y 0x0#4
  | .ldI nnn => packA 0xA nnn
  | .jpV0 nnn => packA 0xB nnn
  | .rnd x nn => packXI 0xC x nn
  | .drw x y n => packXYN 0xD x y n
  | .skp x => packXI 0xE x 0x9E#8
  | .sknp x => packXI 0xE x 0xA1#8
  | .ldVxDt x => packXI 0xF x 0x07#8
  | .ldVxK x => packXI 0xF x 0x0A#8
  | .ldDtVx x => packXI 0xF x 0x15#8
  | .ldStVx x => packXI 0xF x 0x18#8
  | .addI x => packXI 0xF x 0x1E#8
  | .ldF x => packXI 0xF x 0x29#8
  | .ldB x => packXI 0xF x 0x33#8
  | .ldMemVx x => packXI 0xF x 0x55#8
  | .ldVxMem x => packXI 0xF x 0x65#8

/-- The two bytes of an instruction as they lie in memory, high byte first (20_memory.md R60). -/
def encodeBytes (i : Instr) : List Byte := [hiByte (encode i), loByte (encode i)]

/-! ## The opcode map as the manual's table (30_encoding.md R95) -/

/-- One row of the opcode map: the mask and the match of the pattern, and the instruction its fields give. -/
structure OpcodeRow where
  mask : Word
  pattern : Word
  build : Word → Instr

/-- Whether a word matches a row: `(w AND mask) = match` (30_encoding.md R94). -/
def OpcodeRow.covers (r : OpcodeRow) (w : Word) : Bool := w &&& r.mask == r.pattern

/-- Rows 00E0 to 7xnn. -/
def opcodeMapLow : List OpcodeRow :=
  [⟨0xFFFF, 0x00E0, fun _ => .cls⟩,
   ⟨0xFFFF, 0x00EE, fun _ => .ret⟩,
   ⟨0xF000, 0x1000, fun w => .jp (nnnField w)⟩,
   ⟨0xF000, 0x2000, fun w => .call (nnnField w)⟩,
   ⟨0xF000, 0x3000, fun w => .seImm (xField w) (nnField w)⟩,
   ⟨0xF000, 0x4000, fun w => .sneImm (xField w) (nnField w)⟩,
   ⟨0xF00F, 0x5000, fun w => .seReg (xField w) (yField w)⟩,
   ⟨0xF000, 0x6000, fun w => .ldImm (xField w) (nnField w)⟩,
   ⟨0xF000, 0x7000, fun w => .addImm (xField w) (nnField w)⟩]

/-- Rows 8xy0 to 9xy0. -/
def opcodeMapAlu : List OpcodeRow :=
  [⟨0xF00F, 0x8000, fun w => .ldReg (xField w) (yField w)⟩,
   ⟨0xF00F, 0x8001, fun w => .or (xField w) (yField w)⟩,
   ⟨0xF00F, 0x8002, fun w => .and (xField w) (yField w)⟩,
   ⟨0xF00F, 0x8003, fun w => .xor (xField w) (yField w)⟩,
   ⟨0xF00F, 0x8004, fun w => .addReg (xField w) (yField w)⟩,
   ⟨0xF00F, 0x8005, fun w => .sub (xField w) (yField w)⟩,
   ⟨0xF00F, 0x8006, fun w => .shr (xField w)⟩,
   ⟨0xF00F, 0x8007, fun w => .subn (xField w) (yField w)⟩,
   ⟨0xF00F, 0x800E, fun w => .shl (xField w)⟩,
   ⟨0xF00F, 0x9000, fun w => .sneReg (xField w) (yField w)⟩]

/-- Rows Annn to Fx65. -/
def opcodeMapHigh : List OpcodeRow :=
  [⟨0xF000, 0xA000, fun w => .ldI (nnnField w)⟩,
   ⟨0xF000, 0xB000, fun w => .jpV0 (nnnField w)⟩,
   ⟨0xF000, 0xC000, fun w => .rnd (xField w) (nnField w)⟩,
   ⟨0xF000, 0xD000, fun w => .drw (xField w) (yField w) (nField w)⟩,
   ⟨0xF0FF, 0xE09E, fun w => .skp (xField w)⟩,
   ⟨0xF0FF, 0xE0A1, fun w => .sknp (xField w)⟩,
   ⟨0xF0FF, 0xF007, fun w => .ldVxDt (xField w)⟩,
   ⟨0xF0FF, 0xF00A, fun w => .ldVxK (xField w)⟩,
   ⟨0xF0FF, 0xF015, fun w => .ldDtVx (xField w)⟩,
   ⟨0xF0FF, 0xF018, fun w => .ldStVx (xField w)⟩,
   ⟨0xF0FF, 0xF01E, fun w => .addI (xField w)⟩,
   ⟨0xF0FF, 0xF029, fun w => .ldF (xField w)⟩,
   ⟨0xF0FF, 0xF033, fun w => .ldB (xField w)⟩,
   ⟨0xF0FF, 0xF055, fun w => .ldMemVx (xField w)⟩,
   ⟨0xF0FF, 0xF065, fun w => .ldVxMem (xField w)⟩]

/-- The whole opcode map, 34 rows. -/
def opcodeMap : List OpcodeRow := opcodeMapLow ++ opcodeMapAlu ++ opcodeMapHigh

/-! ## The host's question -/

/-- The instruction the decoder reads from an instruction whose bits are `w`, numbered as the opcode table numbers
them: the one 16-bit word, of which `nbits` bits are given and the rest are zero, laid out high byte first. -/
def decodeTableWord (nbits w : Nat) : Option Instr :=
  let word : Word := BitVec.ofNat 16 (w % 2 ^ nbits)
  match decodeBytes [hiByte word, loByte word] with
  | .ok (i, _) => some i
  | .error _ => none

end Sys2Proof
end

