-- ==== Sys2Proof/Machine/State.lean ====
section
/-! DEFINITION. The state of the machine as plain data (10_state.md R20), the signals a step returns (60_exceptions.md
R240 to R244), the reasons a step could stop, and the reset state (R35). -/
namespace Sys2Proof.Machine

/-- What a step returns to the host (60_exceptions.md R240). `pc` is the address of the instruction at fault, `word`
its instruction word. -/
inductive Signal where
  /-- The instruction completed normally (40_step_cycle.md R124). Code 0. -/
  | none
  /-- The word matches no instruction (R241). Code 1. -/
  | unknownOpcode (pc word : Word)
  /-- An access would touch an address above 4095 (R242); `word` is absent when the fetch itself failed; `addr` is the
  lowest address of the access that is out of range. Code 2. -/
  | outOfBounds (pc : Word) (word : Option Word) (addr : Nat)
  /-- `CALL` with a full stack (R243). Code 3. -/
  | stackOverflow (pc word : Word)
  /-- `RET` with an empty stack (R244). Code 4. -/
  | stackUnderflow (pc word : Word)
  deriving DecidableEq, Repr

/-- The reasons the machine stops with a fault: there are none. "Must never fail for any representable 16-bit value"
(40_step_cycle.md R120): every anomaly of the spec is a signal, and a signal is a next state. Log 30. -/
inductive Fault where
  deriving DecidableEq, Repr

/-- The reasons the model gives no meaning. -/
inductive Refusal where
  /-- Raised by an arm of `exec` whose instruction has no meaning yet. No arm raises it in this model. Safe. -/
  | notModelled (mnemonic : String)
  deriving DecidableEq, Repr

/-- Memory as (address, byte) pairs in one canonical form: addresses strictly rising and below 4096, no byte equal to
what an unlisted address reads as (Machine/Memory.lean). -/
abbrev Memory := List Host.Cell

/-- The display grid: 32 rows of 64 one-bit cells; bit `c` of row `r` is `FB[r][c]` (10_state.md R30). -/
abbrev Frame := Vector (BitVec 64) 32

/-- The host's random source as the coming steps meet it (48_random.md R210), plain data. It is outside the machine (R21
(a)); the model holds where it stands. Log 3. -/
structure RandomSource where
  /-- The bytes the host has fixed for the coming RND instructions, the next one first. -/
  pending : List Byte
  /-- Which source delivers once no byte is pending. -/
  id : Nat
  /-- How many bytes RND has consumed. -/
  draws : Nat
  deriving DecidableEq, Repr

/-- The state: the tuple of 10_state.md R20, and three fields of the model's own (`signal`, `faulted`, `random`). -/
structure State where
  /-- `MEM`, 4096 bytes (R24). -/
  mem : Memory
  /-- `V0..VF`, sixteen 8-bit general registers; `V[15]` is VF, the only flag (R22, R23). -/
  v : Vector Byte 16
  /-- `I`, the 16-bit index register (R26). -/
  i : Word
  /-- `PC`, the 16-bit program counter (R27). -/
  pc : Word
  /-- `STK[0..15]`, the call stack (R28). -/
  stk : Vector Word 16
  /-- `SP`, the number of return addresses held, 0..16 (R28). -/
  sp : Fin 17
  /-- `DT`, the delay timer (R29). -/
  dt : Byte
  /-- `ST`, the sound timer (R29). -/
  st : Byte
  /-- `FB`, the display (R30). -/
  fb : Frame
  /-- `KEY[0..15]`, true is down (R31). -/
  key : Vector Bool 16
  /-- The model's own: the signal the latest step returned (R21 (b), R240). Log 1. -/
  signal : Signal
  /-- The model's own: some step has returned a signal other than `none` (R250). Log 2. -/
  faulted : Bool
  /-- The model's own: the random source (R210). Log 3. -/
  random : RandomSource
  deriving DecidableEq, Repr

/-- The machine right after reset (10_state.md R35, 70_reset_and_hazards.md R271). Memory lists nothing: an unlisted
address reads as its reset contents. -/
def State.reset : State where
  mem := []
  v := Vector.replicate 16 0#8
  i := 0#16
  pc := 0x200#16
  stk := Vector.replicate 16 0#16
  sp := 0
  dt := 0#8
  st := 0#8
  fb := Vector.replicate 32 0#64
  key := Vector.replicate 16 false
  signal := .none
  faulted := false
  random := ⟨[], 0, 0⟩

end Sys2Proof.Machine
end

