-- ==== Sys2Proof/Machine/Memory.lean ====
section
/-! DEFINITION. The byte store (10_state.md R24, 20_memory.md R64 to R66): the reset contents, reading and writing one
byte, and the canonical form. -/
namespace Sys2Proof.Machine

/-- Glyphs 0 to 3 of the default font (10_state.md R25, marked there as general knowledge; log 4). -/
def fontLow : List Byte :=
  [0xF0, 0x90, 0x90, 0x90, 0xF0, 0x20, 0x60, 0x20, 0x20, 0x70,
   0xF0, 0x10, 0xF0, 0x80, 0xF0, 0xF0, 0x10, 0xF0, 0x10, 0xF0]

/-- Glyphs 4 to 7. -/
def fontMid : List Byte :=
  [0x90, 0x90, 0xF0, 0x10, 0x10, 0xF0, 0x80, 0xF0, 0x10, 0xF0,
   0xF0, 0x80, 0xF0, 0x90, 0xF0, 0xF0, 0x10, 0x20, 0x40, 0x40]

/-- Glyphs 8 to B. -/
def fontHigh : List Byte :=
  [0xF0, 0x90, 0xF0, 0x90, 0xF0, 0xF0, 0x90, 0xF0, 0x10, 0xF0,
   0xF0, 0x90, 0xF0, 0x90, 0x90, 0xE0, 0x90, 0xE0, 0x90, 0xE0]

/-- Glyphs C to F. -/
def fontTop : List Byte :=
  [0xF0, 0x80, 0x80, 0x80, 0xF0, 0xE0, 0x90, 0x90, 0x90, 0xE0,
   0xF0, 0x80, 0xF0, 0x80, 0xF0, 0xF0, 0x80, 0xF0, 0x80, 0x80]

/-- `FONT`, 80 bytes, glyph d at 5*d .. 5*d+4 (10_state.md R25). -/
def font : List Byte := fontLow ++ fontMid ++ fontHigh ++ fontTop

/-- What an unlisted address reads as: its contents after reset (10_state.md R35), the font at 0x000..0x04F and zero
everywhere else. -/
def initialByte (a : Nat) : Byte := if a < Config.fontSize then font.getD a 0#8 else 0#8

/-- `MEM[a]`. A read has no side effect and returns the byte last written there, or the reset value (20_memory.md R64). -/
def Memory.read : Memory → Nat → Byte
  | [], a => initialByte a
  | (k, b) :: m, a => if k = a then b else Memory.read m a

/-- Puts the cell in front, unless it holds what its address reads as anyway. -/
def Memory.place (a : Nat) (b : Byte) (m : Memory) : Memory := if b = initialByte a then m else (a, b) :: m

/-- `MEM[a] <- b`: changes exactly the addressed byte (20_memory.md R64) and keeps the canonical form. -/
def Memory.write : Memory → Nat → Byte → Memory
  | [], a, b => Memory.place a b []
  | (k, c) :: m, a, b =>
    if a < k then Memory.place a b ((k, c) :: m)
    else if a = k then Memory.place a b m
    else (k, c) :: Memory.write m a b

/-- Writes a list of bytes at rising addresses from `a` on (20_memory.md R61). -/
def Memory.writeList : Memory → Nat → List Byte → Memory
  | m, _, [] => m
  | m, a, b :: bs => Memory.writeList (Memory.write m a b) (a + 1) bs

/-- The canonical form of a memory whose addresses are all at least `lo`. -/
def Memory.wfFrom : Nat → Memory → Bool
  | _, [] => true
  | lo, (k, b) :: m =>
    decide (lo ≤ k) && decide (k < Config.memSize) && !(b == initialByte k) && Memory.wfFrom (k + 1) m

/-- The canonical form: addresses strictly rising and below 4096, no entry equal to what its address reads as. -/
def Memory.wf (m : Memory) : Bool := Memory.wfFrom 0 m

/-- Whether `n` bytes from `addr` on all lie in 0..4095; the sum is unbounded, and no byte is always in range
(44_memory_index.md R180, 20_memory.md R66). -/
def inRange (addr n : Nat) : Bool := n == 0 || decide (addr + n - 1 < Config.memSize)

end Sys2Proof.Machine
end

