-- ==== Sys2Proof/Machine/Ops.lean ====
section
/-! DEFINITION. The named operations over the state: registers, the program counter, the stack, memory behind the range
check, and raising a signal. There is no return from a signal (60_exceptions.md R249), so nothing stands beside it.

CONVENTION (log 29). `exec` and the meanings take the state BEFORE the default advance: `s.pc` is `pc0`. Each meaning
starts from `s.advance`, the state the spec's pseudocode starts from (00_scope.md R12). -/
namespace Sys2Proof.Machine

/-! ## General registers (10_state.md R22) -/

/-- `V[x]`. -/
def State.getV (s : State) (x : Nibble) : Byte := s.v[x.toNat]'x.isLt

/-- `V[x] <- b`. -/
def State.setV (s : State) (x : Nibble) (b : Byte) : State := { s with v := s.v.set x.toNat b x.isLt }

/-- VF, the register that doubles as the flag (10_state.md R23). -/
abbrev vf : Nibble := 0xF#4

/-! ## The other registers -/

/-- `I <- a`. -/
def State.setI (s : State) (a : Word) : State := { s with i := a }

/-- `PC <- a`. -/
def State.setPc (s : State) (a : Word) : State := { s with pc := a }

/-- `DT <- b`. -/
def State.setDt (s : State) (b : Byte) : State := { s with dt := b }

/-- `ST <- b`. -/
def State.setSt (s : State) (b : Byte) : State := { s with st := b }

/-- `FB <- f`. -/
def State.setFb (s : State) (f : Frame) : State := { s with fb := f }

/-! ## The random source (48_random.md R210) -/

/-- The byte the source delivers next: the one the host has fixed, or else a FREE VALUE (log 3). -/
def RandomSource.byte (r : RandomSource) : Byte := r.pending.headD (Config.rnd r.id r.draws)

/-- The source after it has delivered a byte. -/
def RandomSource.next (r : RandomSource) : RandomSource := { r with pending := r.pending.tail, draws := r.draws + 1 }

/-- Consumes the next random byte. -/
def State.consumeByte (s : State) : State := { s with random := s.random.next }

/-- Fixes the byte of the coming RND: the `rnd` the host supplies to a step (49_host_operations.md R221). -/
def State.giveByte (s : State) (b : Byte) : State := { s with random := { s.random with pending := [b] } }

/-- Forgets what the host had fixed: a step's byte that the step did not use is ignored (R210). -/
def State.dropBytes (s : State) : State := { s with random := { s.random with pending := [] } }

/-! ## The step cycle's own operations -/

/-- The default advance, `PC <- pc0 + 2` (40_step_cycle.md R122); the step's signal is `none` until one is raised
(R124). -/
def State.advance (s : State) : State := { s with pc := s.pc + 2#16, signal := .none }

/-- A skip: `PC <- PC + 2` when the condition holds (42_conditional_skip.md). -/
def State.skipIf (s : State) (c : Bool) : State := if c then s.setPc (s.pc + 2#16) else s

/-- RAISING A SIGNAL (00_scope.md R11, 60_exceptions.md R248): nothing is saved, no mode changes, control goes nowhere;
the signal is handed to the host and the run is marked (R250). What PC holds is the caller's business: `pc0 + 2` in the
execute phase, `pc0` for a fetch. -/
def State.raise (s : State) (g : Signal) : State := { s with signal := g, faulted := true }

/-! ## The call stack (10_state.md R28) -/

/-- Pushes a return address: `STK[SP] <- a; SP <- SP + 1`; `none` when the stack is full (41_control_flow.md R143). -/
def State.push (s : State) (a : Word) : Option State :=
  if h : s.sp.val < 16 then
    some { s with stk := s.stk.set s.sp.val a h, sp := ⟨s.sp.val + 1, Nat.succ_lt_succ h⟩ }
  else none

/-- Pops a return address: `SP <- SP - 1`, then reads `STK[SP]`, which keeps its value; `none` when the stack is empty
(41_control_flow.md R141). -/
def State.pop (s : State) : Option (Word × State) :=
  match s.sp with
  | ⟨0, _⟩ => none
  | ⟨k + 1, h⟩ => some (s.stk[k]'(Nat.lt_of_succ_lt_succ h), { s with sp := ⟨k, Nat.lt_of_succ_lt h⟩ })

/-! ## Memory behind the range check (44_memory_index.md R180) -/

/-- `MEM[a]` of a state. -/
def State.byteAt (s : State) (a : Nat) : Byte := Memory.read s.mem a

/-- The `n` bytes from `addr` on, `none` when the range check fails. -/
def State.load (s : State) (addr n : Nat) : Option (List Byte) :=
  if inRange addr n then some ((List.range n).map fun k => s.byteAt (addr + k)) else none

/-- Stores bytes from `addr` on, all or nothing: `none` when the range check fails. -/
def State.store (s : State) (addr : Nat) (bs : List Byte) : Option State :=
  if inRange addr bs.length then some { s with mem := Memory.writeList s.mem addr bs } else none

/-- The lowest address of an access from `base` on that is out of range: `max(base, 4096)` (R180). -/
def lowestOutOfRange (base : Nat) : Nat := max base Config.memSize

/-- The signal of a failed access through I by instruction `i` at `pc0` (60_exceptions.md R242). The word is the
instruction's own: no instruction that raises has an ignored field (log 24). -/
def outOfBoundsAt (pc0 : Word) (i : Instr) (base : Word) : Signal :=
  .outOfBounds pc0 (some (encode i)) (lowestOutOfRange base.toNat)

end Sys2Proof.Machine
end

