-- ==== Sys2Proof/Machine/Flags.lean ====
section
/-! DEFINITION. Every flag computation: each function yields "both a wrapped result and an overflow indicator as an
explicit pair" (43_register_alu.md R159), computed exactly on the integers and narrowed at the end (R171). -/
namespace Sys2Proof.Machine

/-- The flag byte: 0x01 or 0x00, never any other value (10_state.md R23). -/
def flagByte (c : Bool) : Byte := if c then 1#8 else 0#8

/-- `a + b`: the sum mod 256, and 1 on unsigned overflow (R166). -/
def addWithCarry (a b : Byte) : Byte × Byte :=
  let sum := a.toNat + b.toNat
  (BitVec.ofNat 8 sum, flagByte (decide (255 < sum)))

/-- `a - b`: the difference mod 256, and 1 when no borrow occurred, that is `a >= b` (R167). -/
def subNoBorrow (a b : Byte) : Byte × Byte :=
  (BitVec.ofNat 8 (a.toNat + 256 - b.toNat), flagByte (decide (b.toNat ≤ a.toNat)))

/-- Logical shift right by one: `a[7:1]`, and the old bit 0 (R168). -/
def shiftRightOne (a : Byte) : Byte × Byte := (BitVec.ofNat 8 (a.toNat / 2), flagByte (a.getLsbD 0))

/-- Shift left by one: `(a * 2) mod 256`, and the old bit 7 (R170). -/
def shiftLeftOne (a : Byte) : Byte × Byte := (BitVec.ofNat 8 (a.toNat * 2), flagByte (a.getLsbD 7))

/-- The two writes of a flag-writing instruction, in this order: `V[x] <- result`, then `V[15] <- flag`; with x = 15
the flag is what remains (R159, by the spec's decision D7; log 15). -/
def State.setResultAndFlag (s : State) (x : Nibble) (r : Byte × Byte) : State := (s.setV x r.1).setV vf r.2

end Sys2Proof.Machine
end

