-- ==== Sys2Proof/Machine/Alu.lean ====
section
/-! DEFINITION. The register load, arithmetic and logic family (43_register_alu.md R159 to R170): operands are read
first, the result is written, then the flag of the five flag-writing instructions. -/
namespace Sys2Proof.Machine

/-- `LD Vx, nn` (R160; supplied by the spec from general knowledge, log 6). -/
def execLdImm (x : Nibble) (nn : Byte) (s : State) : Host.Outcome State Fault Refusal := .next (s.advance.setV x nn)

/-- `ADD Vx, nn` (R161): wraps mod 256, no flag update. -/
def execAddImm (x : Nibble) (nn : Byte) (s : State) : Host.Outcome State Fault Refusal :=
  .next (s.advance.setV x (s.getV x + nn))

/-- `LD Vx, Vy` (R162). -/
def execLdReg (x y : Nibble) (s : State) : Host.Outcome State Fault Refusal := .next (s.advance.setV x (s.getV y))

/-- `OR Vx, Vy` (R163). -/
def execOr (x y : Nibble) (s : State) : Host.Outcome State Fault Refusal :=
  .next (s.advance.setV x (s.getV x ||| s.getV y))

/-- `AND Vx, Vy` (R164). -/
def execAnd (x y : Nibble) (s : State) : Host.Outcome State Fault Refusal :=
  .next (s.advance.setV x (s.getV x &&& s.getV y))

/-- `XOR Vx, Vy` (R165). -/
def execXor (x y : Nibble) (s : State) : Host.Outcome State Fault Refusal :=
  .next (s.advance.setV x (s.getV x ^^^ s.getV y))

/-- `ADD Vx, Vy` (R166): VF = carry. -/
def execAddReg (x y : Nibble) (s : State) : Host.Outcome State Fault Refusal :=
  .next (s.advance.setResultAndFlag x (addWithCarry (s.getV x) (s.getV y)))

/-- `SUB Vx, Vy` (R167): `Vx - Vy`, VF = no borrow. -/
def execSub (x y : Nibble) (s : State) : Host.Outcome State Fault Refusal :=
  .next (s.advance.setResultAndFlag x (subNoBorrow (s.getV x) (s.getV y)))

/-- `SHR Vx` (R168): `Vx` itself is shifted, VF = old bit 0. -/
def execShr (x : Nibble) (s : State) : Host.Outcome State Fault Refusal :=
  .next (s.advance.setResultAndFlag x (shiftRightOne (s.getV x)))

/-- `SUBN Vx, Vy` (R169): `Vy - Vx`, VF = no borrow. -/
def execSubn (x y : Nibble) (s : State) : Host.Outcome State Fault Refusal :=
  .next (s.advance.setResultAndFlag x (subNoBorrow (s.getV y) (s.getV x)))

/-- `SHL Vx` (R170): `Vx` itself is shifted, VF = old bit 7. -/
def execShl (x : Nibble) (s : State) : Host.Outcome State Fault Refusal :=
  .next (s.advance.setResultAndFlag x (shiftLeftOne (s.getV x)))

end Sys2Proof.Machine
end

