-- ==== Sys2Proof/Machine/Display.lean ====
section
/-! DEFINITION. The display's operations: one cell, the clear (47_drawing.md R200) and the XOR blit with wrap-around and
collision (R201). Rows wrap modulo 32 and columns modulo 64 in the one place that addresses a cell. -/
namespace Sys2Proof.Machine

/-- The cell at row `r` and column `c`, wrapped (10_state.md R30). -/
def cellAt (f : Frame) (r c : Nat) : Bool := (f[r % 32]'(Nat.mod_lt r (by decide))).getLsbD (c % 64)

/-- XORs 1 into the cell at row `r` and column `c`, wrapped. -/
def toggleCell (f : Frame) (r c : Nat) : Frame :=
  f.set (r % 32) (f[r % 32]'(Nat.mod_lt r (by decide)) ^^^ BitVec.twoPow 64 (c % 64)) (Nat.mod_lt r (by decide))

/-- `Display.clear()`: every cell off (R200). -/
def clearFrame : Frame := Vector.replicate 32 0#64

/-- One bit of a sprite row at display row `y`: bit 7 is the leftmost column; a zero bit does nothing; the collision
mark is set when the cell was on before the toggle (R201). -/
def drawBit (x0 y : Nat) (b : Byte) (d : Frame × Bool) (c : Nat) : Frame × Bool :=
  if b.getLsbD (7 - c) then (toggleCell d.1 y (x0 + c), d.2 || cellAt d.1 y (x0 + c)) else d

/-- The eight columns of one sprite row, left to right (R201). -/
def drawRow (x0 y : Nat) (b : Byte) (d : Frame × Bool) : Frame × Bool := (List.range 8).foldl (drawBit x0 y b) d

/-- The rows of a sprite, from display row `y` down (R201). -/
def drawRows (x0 : Nat) : Nat → List Byte → Frame × Bool → Frame × Bool
  | _, [], d => d
  | y, b :: bs, d => drawRows x0 (y + 1) bs (drawRow x0 y b d)

/-- `Display.draw(x0, y0, sprite)`: the new display and whether any pixel was turned off (R201). -/
def drawSprite (x0 y0 : Nat) (sprite : List Byte) (f : Frame) : Frame × Bool := drawRows x0 y0 sprite (f, false)

end Sys2Proof.Machine
end

