-- ==== Sys2Proof/Machine/Operands.lean ====
section
/-! DEFINITION. Every operand form and every derived operand of the instruction set. -/
namespace Sys2Proof.Machine

/-- `zext_16(nnn)`: an immediate address, never scaled (30_encoding.md R93). -/
def addrOf (nnn : Addr12) : Word := BitVec.ofNat 16 nnn.toNat

/-- `zext_16(b)`: a register as a 16-bit addend. -/
def wordOf (b : Byte) : Word := BitVec.ofNat 16 b.toNat

/-- The low nibble of a register: the key index of SKP and SKNP (46_input.md R195, by the spec's decision D18; log 17)
and the digit of LD F (44_memory_index.md R183, D34; log 17). -/
def lowNibble (b : Byte) : Nibble := b.extractLsb' 0 4

/-- The font address of a digit, `FONT_BASE + GLYPH_BYTES * d` (44_memory_index.md R183). -/
def glyphAddr (d : Nibble) : Word := BitVec.ofNat 16 (d.toNat * Config.glyphBytes)

/-- Hundreds, tens and ones of a byte, one byte each (44_memory_index.md R184). -/
def bcdDigits (b : Byte) : List Byte :=
  [BitVec.ofNat 8 (b.toNat / 100), BitVec.ofNat 8 (b.toNat / 10 % 10), BitVec.ofNat 8 (b.toNat % 10)]

/-- `KEY[k]`, the query of SKP, SKNP and LD Vx, K (49_host_operations.md R227). -/
def State.keyDown? (s : State) (k : Nibble) : Bool := s.key[k.toNat]'k.isLt

/-- The sixteen register or key indices in rising order. -/
def nibbles : List Nibble := (List.range 16).map (BitVec.ofNat 4)

/-- The least key that is down, `none` if all are up (46_input.md R198). -/
def State.leastKeyDown (s : State) : Option Nibble := nibbles.find? s.keyDown?

/-- The register indices 0 .. x, ascending: what a block transfer moves (44_memory_index.md R185, R186). -/
def blockRegs (x : Nibble) : List Nibble := (List.range (x.toNat + 1)).map (BitVec.ofNat 4)

/-- The values of `V[0] .. V[x]` (44_memory_index.md R185). -/
def State.blockOf (s : State) (x : Nibble) : List Byte := (blockRegs x).map s.getV

/-- Writes bytes to `V[k], V[k+1], ...`, ascending (44_memory_index.md R186). -/
def State.setBlock : State → Nat → List Byte → State
  | s, _, [] => s
  | s, k, b :: bs => State.setBlock (s.setV (BitVec.ofNat 4 k) b) (k + 1) bs

end Sys2Proof.Machine
end

