-- ==== Sys2Proof/Machine/ControlFlow.lean ====
section
/-! DEFINITION. The control-flow family: CLS, RET, JP, CALL, JP V0 (41_control_flow.md R140 to R144). -/
namespace Sys2Proof.Machine

/-- `CLS` (R140): every cell off; nothing else. -/
def execCls (s : State) : Host.Outcome State Fault Refusal := .next (s.advance.setFb clearFrame)

/-- `RET` (R141): `SP <- SP - 1; PC <- STK[SP]`; with SP = 0 it raises StackUnderflow and changes PC alone, to
`pc0 + 2` (R126). -/
def execRet (s : State) : Host.Outcome State Fault Refusal :=
  match s.advance.pop with
  | some (a, s') => .next (s'.setPc a)
  | none => .next (s.advance.raise (.stackUnderflow s.pc (encode .ret)))

/-- `JP nnn` (R142). -/
def execJp (nnn : Addr12) (s : State) : Host.Outcome State Fault Refusal := .next (s.advance.setPc (addrOf nnn))

/-- `CALL nnn` (R143): pushes the advanced PC and jumps; with SP = 16 it raises StackOverflow and changes PC alone, to
`pc0 + 2` (R126). -/
def execCall (nnn : Addr12) (s : State) : Host.Outcome State Fault Refusal :=
  match s.advance.push s.advance.pc with
  | some s' => .next (s'.setPc (addrOf nnn))
  | none => .next (s.advance.raise (.stackOverflow s.pc (encode (.call nnn))))

/-- `JP V0, nnn` (R144): the sum is formed in 16 bits and not reduced modulo 4096. -/
def execJpV0 (nnn : Addr12) (s : State) : Host.Outcome State Fault Refusal :=
  .next (s.advance.setPc (addrOf nnn + wordOf (s.getV 0#4)))

end Sys2Proof.Machine
end

