-- ==== Sys2Proof/Machine/Drawing.lean ====
section
/-! DEFINITION. The drawing family (47_drawing.md R202). -/
namespace Sys2Proof.Machine

/-- `DRW Vx, Vy, n` (R202): the coordinates are read before VF is written; VF gets the collision flag, also with
n = 0. When the range check fails nothing is read, drawn or flagged and PC alone changes. -/
def execDrw (x y n : Nibble) (s : State) : Host.Outcome State Fault Refusal :=
  match s.load s.i.toNat n.toNat with
  | some sprite =>
    let d := drawSprite (s.getV x).toNat (s.getV y).toNat sprite s.fb
    .next ((s.advance.setFb d.1).setV vf (flagByte d.2))
  | none => .next (s.advance.raise (outOfBoundsAt s.pc (.drw x y n) s.i))

end Sys2Proof.Machine
end

