-- ==== Sys2Proof/Machine/Input.lean ====
section
/-! DEFINITION. The input family (46_input.md R195 to R198). Keys are levels; no instruction writes KEY. -/
namespace Sys2Proof.Machine

/-- `SKP Vx` (R196). -/
def execSkp (x : Nibble) (s : State) : Host.Outcome State Fault Refusal :=
  .next (s.advance.skipIf (s.keyDown? (lowNibble (s.getV x))))

/-- `SKNP Vx` (R197). -/
def execSknp (x : Nibble) (s : State) : Host.Outcome State Fault Refusal :=
  .next (s.advance.skipIf (!s.keyDown? (lowNibble (s.getV x))))

/-- `LD Vx, K` (R198): with every key up the advance is undone, so that the next step fetches the same word; otherwise
the least key down goes to `V[x]`. The signal is `none` either way (R124). -/
def execLdVxK (x : Nibble) (s : State) : Host.Outcome State Fault Refusal :=
  match s.leastKeyDown with
  | some k => .next (s.advance.setV x (BitVec.ofNat 8 k.toNat))
  | none => .next (s.advance.setPc s.pc)

end Sys2Proof.Machine
end

