-- ==== Sys2Proof/Machine/MemoryIndex.lean ====
section
/-! DEFINITION. The memory and index-register family (44_memory_index.md R180 to R186). I is the only base and no
transfer changes it; a transfer that fails the range check moves no byte and changes PC alone. -/
namespace Sys2Proof.Machine

/-- `LD I, nnn` (R181). -/
def execLdI (nnn : Addr12) (s : State) : Host.Outcome State Fault Refusal := .next (s.advance.setI (addrOf nnn))

/-- `ADD I, Vx` (R182): wraps mod 65536, no flag. -/
def execAddI (x : Nibble) (s : State) : Host.Outcome State Fault Refusal :=
  .next (s.advance.setI (s.i + wordOf (s.getV x)))

/-- `LD F, Vx` (R183): the glyph of the low nibble; no memory is accessed. -/
def execLdF (x : Nibble) (s : State) : Host.Outcome State Fault Refusal :=
  .next (s.advance.setI (glyphAddr (lowNibble (s.getV x))))

/-- `LD B, Vx` (R184): hundreds, tens, ones at I, I+1, I+2. -/
def execLdB (x : Nibble) (s : State) : Host.Outcome State Fault Refusal :=
  match s.advance.store s.i.toNat (bcdDigits (s.getV x)) with
  | some s' => .next s'
  | none => .next (s.advance.raise (outOfBoundsAt s.pc (.ldB x) s.i))

/-- `LD [I], Vx` (R185): stores V0..Vx at I .. I+x. -/
def execLdMemVx (x : Nibble) (s : State) : Host.Outcome State Fault Refusal :=
  match s.advance.store s.i.toNat (s.blockOf x) with
  | some s' => .next s'
  | none => .next (s.advance.raise (outOfBoundsAt s.pc (.ldMemVx x) s.i))

/-- `LD Vx, [I]` (R186): loads V0..Vx from I .. I+x. -/
def execLdVxMem (x : Nibble) (s : State) : Host.Outcome State Fault Refusal :=
  match s.load s.i.toNat (x.toNat + 1) with
  | some bs => .next (s.advance.setBlock 0 bs)
  | none => .next (s.advance.raise (outOfBoundsAt s.pc (.ldVxMem x) s.i))

end Sys2Proof.Machine
end

