-- ==== Sys2Proof/Machine/Random.lean ====
section
/-! DEFINITION. The randomization family (48_random.md R210, R211). -/
namespace Sys2Proof.Machine

/-- The random byte this step is given (R210; log 3). -/
def State.rndByte (s : State) : Byte := s.random.byte

/-- `RND Vx, nn` (R211): `V[x] <- rnd AND nn`; the byte is consumed. -/
def execRnd (x : Nibble) (nn : Byte) (s : State) : Host.Outcome State Fault Refusal :=
  .next ((s.advance.setV x (s.rndByte &&& nn)).consumeByte)

end Sys2Proof.Machine
end

