-- ==== Sys2Proof/Machine/Skip.lean ====
section
/-! DEFINITION. The conditional-skip family (42_conditional_skip.md R150 to R153): a skip is a further `PC <- PC + 2`;
no register, flag or memory changes and no signal is raised. -/
namespace Sys2Proof.Machine

/-- `SE Vx, nn` (R150). -/
def execSeImm (x : Nibble) (nn : Byte) (s : State) : Host.Outcome State Fault Refusal :=
  .next (s.advance.skipIf (s.getV x == nn))

/-- `SNE Vx, nn` (R151). -/
def execSneImm (x : Nibble) (nn : Byte) (s : State) : Host.Outcome State Fault Refusal :=
  .next (s.advance.skipIf (s.getV x != nn))

/-- `SE Vx, Vy` (R152). -/
def execSeReg (x y : Nibble) (s : State) : Host.Outcome State Fault Refusal :=
  .next (s.advance.skipIf (s.getV x == s.getV y))

/-- `SNE Vx, Vy` (R153). -/
def execSneReg (x y : Nibble) (s : State) : Host.Outcome State Fault Refusal :=
  .next (s.advance.skipIf (s.getV x != s.getV y))

end Sys2Proof.Machine
end

