-- ==== Sys2Proof/Machine/Timers.lean ====
section
/-! DEFINITION. The timer family (45_timers.md R190 to R192). No instruction counts a timer down. -/
namespace Sys2Proof.Machine

/-- `LD Vx, DT` (R190). -/
def execLdVxDt (x : Nibble) (s : State) : Host.Outcome State Fault Refusal := .next (s.advance.setV x s.dt)

/-- `LD DT, Vx` (R191). -/
def execLdDtVx (x : Nibble) (s : State) : Host.Outcome State Fault Refusal := .next (s.advance.setDt (s.getV x))

/-- `LD ST, Vx` (R192). -/
def execLdStVx (x : Nibble) (s : State) : Host.Outcome State Fault Refusal := .next (s.advance.setSt (s.getV x))

end Sys2Proof.Machine
end

