-- ==== Sys2Proof/Machine/Fetch.lean ====
section
/-! DEFINITION. The fetch and the two steps that execute no instruction (40_step_cycle.md R121, R125). -/
namespace Sys2Proof.Machine

/-- The word at `[PC, PC+1]`, high byte first (20_memory.md R60); `none` when `pc0 + 1 > 4095` (R121). PC's parity is
not looked at (20_memory.md R62). -/
def State.fetch (s : State) : Option Word :=
  match s.load s.pc.toNat 2 with
  | some [hi, lo] => some (wordOfBytes hi lo)
  | _ => none

/-- A step whose fetch is out of bounds (R121): no state changes, PC included; the signal has no word. -/
def State.fetchFailed (s : State) : State :=
  s.raise (.outOfBounds s.pc none (lowestOutOfRange s.pc.toNat))

/-- A step whose word matches no instruction (R125): PC keeps the default advance, nothing else changes. -/
def State.unknownWord (s : State) (w : Word) : State := s.advance.raise (.unknownOpcode s.pc w)

/-- Stores a word at PC, high byte first; nothing where the two bytes do not both lie in memory. -/
def State.placeWord (s : State) (w : Word) : State := (s.store s.pc.toNat [hiByte w, loByte w]).getD s

end Sys2Proof.Machine
end

