-- ==== Sys2Proof/Machine/Step.lean ====
section
/-! DEFINITION. `step()` (40_step_cycle.md R120) and the host's way to place an instruction for it. -/
namespace Sys2Proof.Machine

/-- One call of `step()`: fetch, decode, execute (R120). A failed fetch and an unknown word are signals, not stops. -/
def step (s : State) : Host.Outcome State Fault Refusal :=
  match s.fetch with
  | none => .next s.fetchFailed
  | some w =>
    match decodeWord w with
    | none => .next (s.unknownWord w)
    | some i => exec i s

/-- The state with the instruction whose bits are `w` stored where `step` fetches next, high byte first (20_memory.md
R60). It stands for the host's load (49_host_operations.md R226; log 25). -/
def State.withFetchWord (s : State) (nbits w : Nat) : State := s.placeWord (BitVec.ofNat 16 (w % 2 ^ nbits))

end Sys2Proof.Machine
end

