-- ==== Sys2Proof/Machine/HostOps.lean ====
section
/-! DEFINITION. The host-facing operations (49_host_operations.md R220 to R230) beside `step`, and the sessions they
make up. -/
namespace Sys2Proof.Machine

/-- One countdown, floored at zero, never wrapping negative (R222). -/
def countDown (b : Byte) : Byte := if b = 0#8 then b else b - 1#8

/-- `tick_timers()` (R222): both timers, each independently; nothing else changes. -/
def State.tickTimers (s : State) : State := { s with dt := countDown s.dt, st := countDown s.st }

/-- Sets `KEY[k]`. -/
def State.setKey (s : State) (k : Nibble) (down : Bool) : State := { s with key := s.key.set k.toNat down k.isLt }

/-- `key_down(k)` (R223); `k` is 0..15 by its type (D22). -/
def State.pressKey (s : State) (k : Nibble) : State := s.setKey k true

/-- `key_up(k)` (R224). -/
def State.releaseKey (s : State) (k : Nibble) : State := s.setKey k false

/-- `reset()` (R225): the reset state; the random source is outside the machine and goes on where it was. -/
def State.hostReset (s : State) : State := { State.reset with random := s.random }

/-- `load(image)` (R226): copies the image to 0x200 on; `none` for an image that does not fit. When it is admitted is
the session's business. -/
def State.loadImage (s : State) (image : List Byte) : Option State := s.store Config.progBase image

/-- The framebuffer accessor (R228): 2048 cells in row-major order, cell (r, c) at position r*64 + c. -/
def State.frameCells (s : State) : List Bool :=
  (List.range (Config.dispH * Config.dispW)).map fun k => (s.fb[k / 64 % 32]'(Nat.mod_lt _ (by decide))).getLsbD (k % 64)

/-- The number of a signal (60_exceptions.md R240 to R244; the codes are the spec's own, D15). -/
def Signal.code : Signal → Nat
  | .none => 0
  | .unknownOpcode _ _ => 1
  | .outOfBounds _ _ _ => 2
  | .stackOverflow _ _ => 3
  | .stackUnderflow _ _ => 4

/-- `step()` with its input (R221, 48_random.md R210): the byte `rnd` is this step's alone; RND uses it, every other
instruction ignores it. -/
def stepWith (rnd : Byte) (s : State) : Host.Outcome State Fault Refusal :=
  match step (s.giveByte rnd) with
  | .next t => .next t.dropBytes
  | .fault r => .fault r
  | .refused r => .refused r

/-- The operations that change the state (R220). The accessors are reads of State's fields and of `byteAt`, `getV`,
`keyDown?` and `frameCells`. -/
inductive HostOp where
  | reset
  | load (image : List Byte)
  | step (rnd : Byte)
  | tick
  | keyDown (k : Nibble)
  | keyUp (k : Nibble)
  deriving DecidableEq, Repr

/-- A machine in its host's hands: the state, and whether a load is still admitted, that is no step has been made since
the last reset (R226, 20_memory.md R78). The mark is the host's contract, not machine state (R20). -/
structure Session where
  state : State
  fresh : Bool
  deriving DecidableEq, Repr

/-- A newly constructed machine (R225, R270). -/
def Session.powerOn : Session := ⟨State.reset, true⟩

/-- What a step leaves; `none` if it stopped, which none does. -/
def stateAfter : Host.Outcome State Fault Refusal → Option State
  | .next s => some s
  | .fault _ => none
  | .refused _ => none

/-- One host operation (R220), atomic (R230); `none` where the contract does not admit it: a load after the first step,
or of an image that does not fit (R226, D23). -/
def Session.apply (h : Session) : HostOp → Option Session
  | .reset => some ⟨h.state.hostReset, true⟩
  | .load image => if h.fresh then (h.state.loadImage image).map (⟨·, true⟩) else none
  | .step rnd => (stateAfter (stepWith rnd h.state)).map (⟨·, false⟩)
  | .tick => some { h with state := h.state.tickTimers }
  | .keyDown k => some { h with state := h.state.pressKey k }
  | .keyUp k => some { h with state := h.state.releaseKey k }

/-- Operations one after another, in any interleaving and with any random bytes (R230, R210). -/
def Session.run : Session → List HostOp → Option Session
  | h, [] => some h
  | h, o :: os => (h.apply o).bind (Session.run · os)

/-! ## The end of a run (R232) -/

/-- The suggested END_OF_RUN (R232, 92_eei_decisions.md D25; log 35): PC holds the address of a JP to that same address. -/
def State.atSelfJump (s : State) : Bool :=
  match s.fetch.bind decodeWord with
  | some (.jp nnn) => s.pc.toNat == nnn.toNat
  | _ => false

/-- A run that ends where the predicate END_OF_RUN says, the model's argument (00_scope.md R6, D25): the operations are
performed until it holds, and what is left of them is not. The host still ends a run by performing no more of them. -/
def Session.runUntil (endOfRun : State → Bool) : Session → List HostOp → Option Session
  | h, [] => some h
  | h, o :: os => if endOfRun h.state then some h else (h.apply o).bind (Session.runUntil endOfRun · os)

/-- Whether a run has come to a normal end: END_OF_RUN holds and no step has signalled (93_implementation_defined.md U1,
U13, U15). -/
def Session.endedWell (endOfRun : State → Bool) (h : Session) : Bool := endOfRun h.state && !h.state.faulted

end Sys2Proof.Machine
end

