-- ==== Sys2Proof/Safety.lean ====
section
/-! DEFINITION. The terms in which claims are stated: the invariants of reachable states (10_state.md R36), what it
means that a part of the state is kept, and which instructions raise a signal where (60_exceptions.md R245). -/
namespace Sys2Proof.Machine

/-! ## Invariants -/

/-- The invariant of every reachable state (10_state.md R36): memory is in its canonical form, `PC <= 0x10FE`, and
every stack slot is at most 4096. `0 <= SP <= 16` and the widths hold by the types of the fields. -/
def StateInv (s : State) : Prop :=
  Memory.wf s.mem = true ∧ s.pc.toNat ≤ 0x10FE ∧ ∀ k : Fin 16, s.stk[k].toNat ≤ 0x1000

/-- The conditional invariant of 10_state.md R36: PC is even, and so is every return address held. -/
def EvenPc (s : State) : Prop := s.pc.toNat % 2 = 0 ∧ ∀ k : Fin 16, s.stk[k].toNat % 2 = 0

/-- Whether a transfer's target is even (70_reset_and_hazards.md R284 (a)); the other instructions have none to check. -/
def transferEven (i : Instr) (s : State) : Bool :=
  match i with
  | .jp nnn | .call nnn => nnn.toNat % 2 == 0
  | .jpV0 nnn => (nnn.toNat + (s.getV 0#4).toNat) % 2 == 0
  | _ => true

/-! ## What is kept -/

/-- Every byte of memory reads as before. -/
def SameMem (s t : State) : Prop := ∀ a, t.byteAt a = s.byteAt a

/-- Every byte outside the `n` bytes from `addr` on reads as before. -/
def SameMemOutside (addr n : Nat) (s t : State) : Prop := ∀ a, a < addr ∨ addr + n ≤ a → t.byteAt a = s.byteAt a

/-- Every general register outside the list holds what it held. -/
def SameRegsBut (xs : List Nibble) (s t : State) : Prop := ∀ r, r ∉ xs → t.getV r = s.getV r

/-- The call stack, pointer and slots, is as before. -/
def SameStack (s t : State) : Prop := t.sp = s.sp ∧ t.stk = s.stk

/-- Both timers are as before. -/
def SameTimers (s t : State) : Prop := t.dt = s.dt ∧ t.st = s.st

/-- The register that an instruction's x field names as a destination (10_state.md R22, R23). -/
def destination : Instr → Option Nibble
  | .ldImm x _ | .addImm x _ | .ldReg x _ | .or x _ | .and x _ | .xor x _ | .addReg x _ | .sub x _ | .shr x
  | .subn x _ | .shl x | .rnd x _ | .ldVxDt x | .ldVxK x | .ldVxMem x => some x
  | .cls | .ret | .jp _ | .call _ | .seImm _ _ | .sneImm _ _ | .seReg _ _ | .sneReg _ _ | .ldI _ | .jpV0 _ | .drw _ _ _
  | .skp _ | .sknp _ | .ldDtVx _ | .ldStVx _ | .addI _ | .ldF _ | .ldB _ | .ldMemVx _ => none

/-- The six instructions that write VF as a flag (10_state.md R23). -/
def flagWriter : Instr → Bool
  | .addReg _ _ | .sub _ _ | .shr _ | .subn _ _ | .shl _ | .drw _ _ _ => true
  | .cls | .ret | .jp _ | .call _ | .seImm _ _ | .sneImm _ _ | .seReg _ _ | .sneReg _ _ | .ldImm _ _ | .addImm _ _
  | .ldReg _ _ | .or _ _ | .and _ _ | .xor _ _ | .ldI _ | .jpV0 _ | .rnd _ _ | .skp _ | .sknp _ | .ldVxDt _ | .ldVxK _
  | .ldDtVx _ | .ldStVx _ | .addI _ | .ldF _ | .ldB _ | .ldMemVx _ | .ldVxMem _ => false

/-- Whether an instruction may write a register: the one its x field names as a destination, V0..Vx for the block load,
and VF for the flag writers. -/
def mayWrite (i : Instr) (r : Nibble) : Prop :=
  destination i = some r ∨ (flagWriter i = true ∧ r = vf) ∨ ∃ x, i = .ldVxMem x ∧ r.toNat ≤ x.toNat

/-- No register but those in the list changed, no other machine state but PC changed, and the step completed normally:
the signal is `none`, the mark is as it was and no random byte was consumed. -/
def OnlyRegs (xs : List Nibble) (s t : State) : Prop :=
  SameRegsBut xs s t ∧ t.i = s.i ∧ SameStack s t ∧ SameTimers s t ∧ t.fb = s.fb ∧ t.key = s.key ∧ SameMem s t ∧
    t.signal = .none ∧ t.faulted = s.faulted ∧ t.random = s.random

/-- Nothing of the machine changed but PC, which holds the default advance; the signal is `g` and the run is marked:
a step that raised in its execute phase (40_step_cycle.md R126). -/
def RaisedOnly (g : Signal) (s t : State) : Prop :=
  t = { s with pc := s.pc + 2#16, signal := g, faulted := true }

/-! ## Which instruction raises a signal in which state (60_exceptions.md R245) -/

/-- The execute-phase rows of the table of R245. -/
def Raises (i : Instr) (s : State) : Prop :=
  match i with
  | .ret => s.sp.val = 0
  | .call _ => s.sp.val = 16
  | .ldB _ => 4094 ≤ s.i.toNat
  | .ldMemVx x | .ldVxMem x => 4096 ≤ s.i.toNat + x.toNat
  | .drw _ _ n => 1 ≤ n.toNat ∧ 4097 ≤ s.i.toNat + n.toNat
  | _ => False

/-! ## The display -/

/-- The number of cells that are on. -/
def litCells (f : Frame) : Nat :=
  ((List.range 32).map fun r => ((List.range 64).filter fun c => cellAt f r c).length).sum

/-- The number of set bits of a sprite. -/
def setBits (sprite : List Byte) : Nat :=
  (sprite.map fun b => ((List.range 8).filter fun k => b.getLsbD k).length).sum

/-- Whether bit `7 - c` of row `r` of the sprite is set, for some row and column that the blit at (x0, y0) maps to the
cell (py, px) (47_drawing.md R201). -/
def SpriteCovers (x0 y0 : Nat) (sprite : List Byte) (py px : Nat) : Prop :=
  ∃ r c, ∃ h : r < sprite.length, c < 8 ∧ sprite[r].getLsbD (7 - c) = true ∧
    (y0 + r) % 32 = py ∧ (x0 + c) % 64 = px

/-- The sprite bytes of `DRW` with `n` rows (47_drawing.md R202). -/
def spriteAt (s : State) (n : Nibble) : List Byte := (List.range n.toNat).map fun r => s.byteAt (s.i.toNat + r)

end Sys2Proof.Machine
end

