-- ==== Sys2Proof/Certificates/Slice0/Obligations.lean ====
section
/-! DEFINITION. The statements about the model. "The spec's own decision D<n>" marks a clause that rests on a choice the
spec itself marks as its own (92_eei_decisions.md); such a statement has basis derived. -/

open Sys2Proof Sys2Proof.Machine

/-! ## The step cycle -/

/-- When the two bytes at PC decode to an instruction, the step is `exec` of it at the same state; nothing is added
around `exec`, which itself advances PC (log 29). -/
def Obligations.StepRunsDecodedInstruction : Prop :=
  ∀ (s : State) (i : Instr), s.pc.toNat + 1 ≤ 4095 →
    decodeBytes [s.byteAt s.pc.toNat, s.byteAt (s.pc.toNat + 1)] = .ok (i, []) → step s = exec i s

/-- R60: the fetched word is `MEM[pc0] ‖ MEM[pc0+1]`, for an instruction stored by the program or loaded by the host:
the first byte of an image is the high byte of the first instruction. -/
def Obligations.FetchIsBigEndian : Prop :=
  (∀ s : State, s.pc.toNat + 1 ≤ 4095 →
    ∃ w, s.fetch = some w ∧ hiByte w = s.byteAt s.pc.toNat ∧ loByte w = s.byteAt (s.pc.toNat + 1)) ∧
  (∀ (b0 b1 : Byte) (image : List Byte), imageFits (b0 :: b1 :: image) = true →
    ∃ t, State.reset.loadImage (b0 :: b1 :: image) = some t ∧
      ∃ w, t.fetch = some w ∧ hiByte w = b0 ∧ loByte w = b1)

/-- R125: an unknown word changes nothing but PC, which keeps the default advance, and the signal tells the host; in
particular the word 0x0000 of zeroed memory. (`signal` and the mark `faulted` are the model's own fields, log 1, 2.) -/
def Obligations.UnknownWordOnlyAdvancesAndSignals : Prop :=
  (∀ s : State, s.pc.toNat + 1 ≤ 4095 →
    ∀ w, w = wordOfBytes (s.byteAt s.pc.toNat) (s.byteAt (s.pc.toNat + 1)) → decodeWord w = none →
      step s = .next { s with pc := s.pc + 2#16, signal := .unknownOpcode s.pc w, faulted := true }) ∧
  decodeWord 0x0000#16 = none

/-- A fetch at 4095 or above reads nothing and changes nothing, PC included; the signal has no word, and its address is
the lowest one out of range. The spec's own decision D14 (log 11). -/
def Obligations.FetchOutOfBoundsChangesNothing : Prop :=
  ∀ s : State, 4095 ≤ s.pc.toNat →
    step s = .next { s with signal := .outOfBounds s.pc none (max s.pc.toNat 4096), faulted := true }

/-- `step()` is total: in every state, reachable or not, it answers one next state; it never stops. -/
def Obligations.StepAnswersInEveryState : Prop := ∀ s : State, ∃ t, step s = .next t

/-- A step that returns a signal other than `none` changed nothing but PC, and PC is `pc0 + 2`, or `pc0` when the fetch
was out of bounds (the spec's own decisions D13, D14, log 10, 11). The mark R250 asks a model to keep (the model's own
field, log 2) is set exactly when a step signals and is never cleared. -/
def Obligations.SignalledStepChangesOnlyPcAndMarks : Prop :=
  (∀ s t : State, step s = .next t → t.signal ≠ .none →
    t = { s with pc := t.pc, signal := t.signal, faulted := true } ∧
      ((s.pc.toNat ≤ 4094 ∧ t.pc = s.pc + 2#16) ∨ (4095 ≤ s.pc.toNat ∧ t.pc = s.pc))) ∧
  (∀ s t : State, step s = .next t → (t.faulted = true ↔ s.faulted = true ∨ t.signal ≠ .none))

/-- The table of R245, which the spec derives: an instruction returns a signal exactly in the states the table gives,
and 28 of the 34 instructions return `none` in every state. -/
def Obligations.SignalsAreExactlyTheTable : Prop :=
  ∀ (i : Instr) (s t : State), exec i s = .next t → (t.signal ≠ .none ↔ Raises i s)

/-- The word a signal carries is the word that was fetched, and its pc the address it was fetched from. -/
def Obligations.SignalCarriesFetchedWord : Prop :=
  ∀ (s t : State) (w : Word), s.fetch = some w → step s = .next t →
    t.signal = .none ∨ t.signal = .unknownOpcode s.pc w ∨ t.signal = .stackOverflow s.pc w ∨
      t.signal = .stackUnderflow s.pc w ∨ t.signal = .outOfBounds s.pc (some w) (max s.i.toNat 4096)

/-! ## Reset and invariants -/

/-- The reset values of R35, I and SP by the spec's own decision D27 (log 7); the font bytes are `font` (log 4). -/
def Obligations.ResetState : Prop :=
  (∀ x, State.reset.getV x = 0#8) ∧ State.reset.i = 0#16 ∧ State.reset.pc = 0x200#16 ∧ State.reset.sp.val = 0 ∧
  (∀ k : Fin 16, State.reset.stk[k] = 0#16) ∧ State.reset.dt = 0#8 ∧ State.reset.st = 0#8 ∧
  (∀ r c, cellAt State.reset.fb r c = false) ∧ (∀ k, State.reset.keyDown? k = false) ∧
  (∀ a, a < 80 → State.reset.byteAt a = font.getD a 0#8) ∧ (∀ a, 80 ≤ a → a < 4096 → State.reset.byteAt a = 0#8)

/-- The invariant of R36 and its conditional part, evenness, hold at reset. That memory is in canonical form is no part of
R36 but the model's own choice (log 32). -/
def Obligations.ResetMeetsInvariant : Prop := StateInv State.reset ∧ EvenPc State.reset

/-- Every step keeps the invariant: PC <= 0x10FE and every stack slot <= 4096, which the spec derives in R36, and the
canonical form of memory, which is the model's own choice (log 32). -/
def Obligations.StepKeepsInvariant : Prop := ∀ s t : State, StateInv s → step s = .next t → StateInv t

/-- Every operation of the host that the contract admits keeps the invariant (R36, derived there). The canonical form of
memory in it is the model's own choice (log 32), and so is the session (log 25, 26). -/
def Obligations.HostOperationsKeepInvariant : Prop :=
  ∀ (h h' : Session) (o : HostOp), StateInv h.state → h.apply o = some h' → StateInv h'.state

/-- Every state reachable from power-on by any interleaving of host operations meets the invariant, and has
`SP <= 16` (R36, which the spec derives). The canonical form of memory in it is the model's own choice (log 32). -/
def Obligations.ReachableStatesMeetInvariant : Prop :=
  ∀ (ops : List HostOp) (h : Session), Session.powerOn.run ops = some h → StateInv h.state ∧ h.state.sp.val ≤ 16

/-- PC stays even through every step whose instruction, if it is a jump or a call, has an even target: the conditional
invariant of R36. -/
def Obligations.EvenTargetsKeepPcEven : Prop :=
  ∀ s t : State, EvenPc s →
    (∀ w i, s.fetch = some w → decodeWord w = some i → transferEven i s = true) → step s = .next t → EvenPc t

/-- In a canonical memory a read after a write gives the byte written and every other address keeps its byte (R64). That
the form is kept, and that canonical memories that read alike are equal, is about the model's own choice (log 32). -/
def Obligations.MemoryIsOneByteStore : Prop :=
  (∀ (m : Memory) (a a' : Nat) (b : Byte), Memory.wf m = true → a < 4096 →
    Memory.wf (Memory.write m a b) = true ∧
      Memory.read (Memory.write m a b) a' = if a' = a then b else Memory.read m a') ∧
  (∀ m m' : Memory, Memory.wf m = true → Memory.wf m' = true → (∀ a, Memory.read m a = Memory.read m' a) → m = m')

/-- Who may write what, over all instructions: a general register only by an instruction whose destination it is (R22),
by a block load that reaches it, or, VF, as the flag of the six of R23; VF besides only by an instruction whose x is 15 (the
spec's own decision D8, log 15); KEY by none (R34), memory by LD B and LD [I] alone (R63), the stack by CALL and RET (R28), I
by LD I, ADD I and LD F (R26), DT by LD DT, ST by LD ST (R29), the display by CLS and DRW (R30); the random source, the
model's own field (log 3), by RND. -/
def Obligations.OnlyTheNamedInstructionsWrite : Prop :=
  ∀ (i : Instr) (s t : State), exec i s = .next t →
    (∀ r, ¬ mayWrite i r → t.getV r = s.getV r) ∧
    (t.getV 0xF#4 ≠ s.getV 0xF#4 → flagWriter i = true ∨ destination i = some 0xF#4) ∧
    t.key = s.key ∧
    ((∀ x, i ≠ .ldB x) → (∀ x, i ≠ .ldMemVx x) → t.mem = s.mem) ∧
    ((∀ n, i ≠ .call n) → i ≠ .ret → SameStack s t) ∧
    ((∀ n, i ≠ .ldI n) → (∀ x, i ≠ .addI x) → (∀ x, i ≠ .ldF x) → t.i = s.i) ∧
    ((∀ x, i ≠ .ldDtVx x) → t.dt = s.dt) ∧ ((∀ x, i ≠ .ldStVx x) → t.st = s.st) ∧
    (i ≠ .cls → (∀ x y n, i ≠ .drw x y n) → t.fb = s.fb) ∧
    ((∀ x nn, i ≠ .rnd x nn) → t.random = s.random)

/-- The random byte is used by RND alone (R210): any other instruction does the same whatever the random source holds, and
a step with its byte (R221) at a word that is not RND, an unknown word and a failed fetch included, does what `step` does,
whatever the byte, and leaves no byte fixed. The source is the model's own field (log 3). -/
def Obligations.OnlyRndUsesTheRandomSource : Prop :=
  (∀ (i : Instr) (s : State) (r : RandomSource), (∀ x nn, i ≠ .rnd x nn) →
    ∃ t, exec i s = .next t ∧ exec i { s with random := r } = .next { t with random := r }) ∧
  (∀ (s : State) (b b' : Byte), (∀ w x nn, s.fetch = some w → decodeWord w ≠ some (.rnd x nn)) →
    stepWith b s = stepWith b' s ∧
    ∃ t, step s = .next t ∧ stepWith b s = .next { t with random := { s.random with pending := [] } })

/-! ## Encoding (the bit patterns are the spec's, from general knowledge: its decisions D1 to D4, log 5, 6) -/

/-- Decoding the encoded instruction gives it back, for every instruction and every operand. -/
def Obligations.DecodeOfEncode : Prop :=
  ∀ i : Instr, i.wellFormed = true →
    decodeWord (encode i) = some i ∧ ∀ rest, decodeBytes (encodeBytes i ++ rest) = .ok (i, rest)

/-- Encoding the decoded instruction gives the word back, but for the y field of the shifts, which is ignored (R97, the
spec's own decision D6, log 16). -/
def Obligations.EncodeOfDecode : Prop :=
  ∀ (w : Word) (i : Instr), decodeWord w = some i →
    encode i = w ∨ (∃ x, (i = .shr x ∨ i = .shl x) ∧ encode i = w &&& 0xFF0F#16)

/-- The decoder is the opcode map of R95: it answers what the first row that covers the word builds, no row but that one
covers the word (so the order of the rows does not matter, R94), and an uncovered word is unknown. -/
def Obligations.DecoderIsTheOpcodeMap : Prop :=
  (∀ w : Word, decodeWord w = (opcodeMap.find? fun r => r.covers w).map fun r => r.build w) ∧
  (∀ w : Word, (opcodeMap.filter fun r => r.covers w).length ≤ 1)

/-- The unknown words are exactly the sets of R98 (the spec's own decision D3, log 21). -/
def Obligations.UnknownWordsAreExactlyTheSets : Prop :=
  ∀ w : Word, decodeWord w = none ↔
    ((opField w = 0x0#4 ∧ nnnField w ≠ 0x0E0#12 ∧ nnnField w ≠ 0x0EE#12) ∨
     (opField w = 0x5#4 ∧ nField w ≠ 0#4) ∨
     (opField w = 0x8#4 ∧ nField w ∈ [0x8#4, 0x9#4, 0xA#4, 0xB#4, 0xC#4, 0xD#4, 0xF#4]) ∨
     (opField w = 0x9#4 ∧ nField w ≠ 0#4) ∨
     (opField w = 0xE#4 ∧ nnField w ∉ [0x9E#8, 0xA1#8]) ∨
     (opField w = 0xF#4 ∧
       nnField w ∉ [0x07#8, 0x0A#8, 0x15#8, 0x18#8, 0x1E#8, 0x29#8, 0x33#8, 0x55#8, 0x65#8]))

/-- The worked words of R102, which the spec derives. -/
def Obligations.WorkedWordsDecode : Prop :=
  decodeWord 0x00E0#16 = some .cls ∧ decodeWord 0x1208#16 = some (.jp 0x208#12) ∧
  decodeWord 0x3A7F#16 = some (.seImm 0xA#4 0x7F#8) ∧ decodeWord 0x8AB4#16 = some (.addReg 0xA#4 0xB#4) ∧
  decodeWord 0x83F6#16 = some (.shr 0x3#4) ∧ decodeWord 0x8AB8#16 = none ∧ decodeWord 0x5AB1#16 = none ∧
  decodeWord 0xD015#16 = some (.drw 0x0#4 0x1#4 0x5#4) ∧ decodeWord 0xE19E#16 = some (.skp 0x1#4) ∧
  decodeWord 0xF20A#16 = some (.ldVxK 0x2#4) ∧ decodeWord 0xF265#16 = some (.ldVxMem 0x2#4) ∧
  decodeWord 0xFF75#16 = none ∧ decodeWord 0x0000#16 = none

/-! ## Control flow -/

/-- CLS turns every cell off and changes nothing else but PC. -/
def Obligations.ClsTurnsEveryCellOff : Prop :=
  ∀ s : State, ∃ t, exec .cls s = .next t ∧ (∀ r c, cellAt t.fb r c = false) ∧ litCells t.fb = 0 ∧
    t = { s with pc := s.pc + 2#16, fb := t.fb, signal := .none }

/-- RET with something on the stack takes PC from the slot under the decremented pointer, exactly, and changes nothing
else; the slot keeps its value. Pre-decrement is the spec's own decision D16 (log 9). -/
def Obligations.RetPopsTheReturnAddress : Prop :=
  ∀ (s : State) (k : Nat) (hk : k < 16), s.sp.val = k + 1 →
    ∃ t, exec .ret s = .next t ∧ t.pc = s.stk[k] ∧ t.sp.val = k ∧
      t = { s with pc := t.pc, sp := t.sp, signal := .none }

/-- JP and JP V0 set PC to the target, zero-extended, with JP V0's offset added in 16 bits and not reduced (the spec's
own decision D29, log 19), and change nothing else. At a JP to its own address, the END_OF_RUN the spec suggests (D25,
log 35), every step changes nothing and returns `none` (R232). -/
def Obligations.JumpsSetPc : Prop :=
  (∀ (nnn : Addr12) (s : State), ∃ t, exec (.jp nnn) s = .next t ∧ t.pc.toNat = nnn.toNat ∧ OnlyRegs [] s t) ∧
  (∀ (nnn : Addr12) (s : State), ∃ t, exec (.jpV0 nnn) s = .next t ∧
    t.pc.toNat = nnn.toNat + (s.getV 0x0#4).toNat ∧ OnlyRegs [] s t) ∧
  (∀ (s : State) (n : Nat), s.atSelfJump = true → Sys2Proof.core.run (n + 1) s = .next { s with signal := .none })

/-- CALL below capacity pushes the address after itself, increments SP and jumps; every other slot and everything else
is kept. Post-increment is the spec's own decision D16 (log 9). -/
def Obligations.CallPushesAndJumps : Prop :=
  ∀ (nnn : Addr12) (s : State) (k : Nat) (hk : k < 16), s.sp.val = k →
    ∃ t, exec (.call nnn) s = .next t ∧ t.pc.toNat = nnn.toNat ∧ t.sp.val = k + 1 ∧
      t.stk[k] = s.pc + 2#16 ∧ (∀ (j : Nat) (hj : j < 16), j ≠ k → t.stk[j] = s.stk[j]) ∧
      t = { s with pc := t.pc, sp := t.sp, stk := t.stk, signal := .none }

/-- RET with an empty stack raises StackUnderflow and CALL with a full one StackOverflow; each is otherwise a no-op that
advances PC (the spec's own decision D13, log 10). -/
def Obligations.StackEndsOnlySignal : Prop :=
  (∀ s : State, s.sp.val = 0 →
    ∃ t, exec .ret s = .next t ∧ RaisedOnly (.stackUnderflow s.pc 0x00EE#16) s t) ∧
  (∀ (nnn : Addr12) (s : State), s.sp.val = 16 →
    ∃ t, exec (.call nnn) s = .next t ∧
      RaisedOnly (.stackOverflow s.pc (BitVec.ofNat 16 (0x2000 + nnn.toNat))) s t)

/-- A RET after a CALL, with anything in between that left SP as the CALL did and the slot the CALL wrote as it was (nested
calls that have returned leave other values above SP), comes back to the instruction after the CALL with the pointer the CALL
found. The slot and the orders are the spec's own decision D16 (log 9). -/
def Obligations.CallThenRetComesBack : Prop :=
  ∀ (nnn : Addr12) (s t u : State) (k : Nat) (hk : k < 16), s.sp.val = k → exec (.call nnn) s = .next t →
    u.sp = t.sp → u.stk[k] = t.stk[k] → ∃ r, exec .ret u = .next r ∧ r.pc = s.pc + 2#16 ∧ r.sp = s.sp

/-! ## Conditional skips -/

/-- R150 to R153: each skip advances PC by 4 when its condition holds and by 2 otherwise and changes nothing else; the
words that match its mask decode to it, and 5xyN, 9xyN with N not 0 to nothing. -/
def Obligations.SkipsAdvanceByFourOrTwo : Prop :=
  (∀ (x : Nibble) (nn : Byte) (s : State), ∃ t, exec (.seImm x nn) s = .next t ∧ OnlyRegs [] s t ∧
    t.pc = if s.getV x = nn then s.pc + 4#16 else s.pc + 2#16) ∧
  (∀ (x : Nibble) (nn : Byte) (s : State), ∃ t, exec (.sneImm x nn) s = .next t ∧ OnlyRegs [] s t ∧
    t.pc = if s.getV x ≠ nn then s.pc + 4#16 else s.pc + 2#16) ∧
  (∀ (x y : Nibble) (s : State), ∃ t, exec (.seReg x y) s = .next t ∧ OnlyRegs [] s t ∧
    t.pc = if s.getV x = s.getV y then s.pc + 4#16 else s.pc + 2#16) ∧
  (∀ (x y : Nibble) (s : State), ∃ t, exec (.sneReg x y) s = .next t ∧ OnlyRegs [] s t ∧
    t.pc = if s.getV x ≠ s.getV y then s.pc + 4#16 else s.pc + 2#16) ∧
  (∀ w : Word,
    (w &&& 0xF000#16 = 0x3000#16 → decodeWord w = some (.seImm (xField w) (nnField w))) ∧
    (w &&& 0xF000#16 = 0x4000#16 → decodeWord w = some (.sneImm (xField w) (nnField w))) ∧
    (w &&& 0xF00F#16 = 0x5000#16 → decodeWord w = some (.seReg (xField w) (yField w))) ∧
    (w &&& 0xF00F#16 = 0x9000#16 → decodeWord w = some (.sneReg (xField w) (yField w))) ∧
    (w &&& 0xF000#16 = 0x5000#16 → nField w ≠ 0#4 → decodeWord w = none) ∧
    (w &&& 0xF000#16 = 0x9000#16 → nField w ≠ 0#4 → decodeWord w = none))

/-! ## Register load, arithmetic and logic -/

/-- LD Vx, nn loads the immediate and changes nothing else. The instruction is the spec's own decision D4 (log 6). -/
def Obligations.LdImmLoadsImmediate : Prop :=
  ∀ (x : Nibble) (nn : Byte) (s : State), ∃ t, exec (.ldImm x nn) s = .next t ∧ t.getV x = nn ∧
    t.pc = s.pc + 2#16 ∧ OnlyRegs [x] s t

/-- R161: ADD Vx, nn adds modulo 256 and changes no flag and nothing else; 7xnn decodes to it. -/
def Obligations.AddImmWrapsWithoutFlag : Prop :=
  (∀ (x : Nibble) (nn : Byte) (s : State), ∃ t, exec (.addImm x nn) s = .next t ∧
    (t.getV x).toNat = ((s.getV x).toNat + nn.toNat) % 256 ∧ t.pc = s.pc + 2#16 ∧ OnlyRegs [x] s t) ∧
  (∀ w : Word, w &&& 0xF000#16 = 0x7000#16 → decodeWord w = some (.addImm (xField w) (nnField w)))

/-- R162: LD Vx, Vy copies and changes nothing else; 8xy0 decodes to it. -/
def Obligations.LdRegCopies : Prop :=
  (∀ (x y : Nibble) (s : State), ∃ t, exec (.ldReg x y) s = .next t ∧ t.getV x = s.getV y ∧
    t.pc = s.pc + 2#16 ∧ OnlyRegs [x] s t) ∧
  (∀ w : Word, w &&& 0xF00F#16 = 0x8000#16 → decodeWord w = some (.ldReg (xField w) (yField w)))

/-- OR, AND and XOR work bit by bit and change nothing else, VF included unless it is the destination (the spec's own
decision D8, log 15). -/
def Obligations.LogicIsBitwiseWithoutFlag : Prop :=
  (∀ (x y : Nibble) (s : State), ∃ t, exec (.or x y) s = .next t ∧ t.pc = s.pc + 2#16 ∧ OnlyRegs [x] s t ∧
    ∀ k, (t.getV x).getLsbD k = ((s.getV x).getLsbD k || (s.getV y).getLsbD k)) ∧
  (∀ (x y : Nibble) (s : State), ∃ t, exec (.and x y) s = .next t ∧ t.pc = s.pc + 2#16 ∧ OnlyRegs [x] s t ∧
    ∀ k, (t.getV x).getLsbD k = ((s.getV x).getLsbD k && (s.getV y).getLsbD k)) ∧
  (∀ (x y : Nibble) (s : State), ∃ t, exec (.xor x y) s = .next t ∧ t.pc = s.pc + 2#16 ∧ OnlyRegs [x] s t ∧
    ∀ k, (t.getV x).getLsbD k = ((s.getV x).getLsbD k ^^ (s.getV y).getLsbD k))

/-- ADD Vx, Vy: VF is the carry of the exact sum, and when x is not 15 sum and carry together are the exact sum (P5).
With x = 15 the flag is what remains: the spec's own decision D7 (log 15). -/
def Obligations.AddRegSumAndCarry : Prop :=
  ∀ (x y : Nibble) (s : State), ∃ t, exec (.addReg x y) s = .next t ∧ t.pc = s.pc + 2#16 ∧
    OnlyRegs [x, 0xF#4] s t ∧
    (t.getV 0xF#4 = if 255 < (s.getV x).toNat + (s.getV y).toNat then 1#8 else 0#8) ∧
    (x ≠ 0xF#4 → (t.getV x).toNat + 256 * (t.getV 0xF#4).toNat = (s.getV x).toNat + (s.getV y).toNat)

/-- SUB and SUBN: VF is 1 when no borrow occurred, and when x is not 15 difference and borrow together are the exact
difference (P6). With x = 15 the flag is what remains: the spec's own decision D7 (log 15). -/
def Obligations.SubtractsDifferenceAndNoBorrow : Prop :=
  (∀ (x y : Nibble) (s : State), ∃ t, exec (.sub x y) s = .next t ∧ t.pc = s.pc + 2#16 ∧
    OnlyRegs [x, 0xF#4] s t ∧
    (t.getV 0xF#4 = if (s.getV y).toNat ≤ (s.getV x).toNat then 1#8 else 0#8) ∧
    (x ≠ 0xF#4 → (t.getV x).toNat + (s.getV y).toNat + 256 * (t.getV 0xF#4).toNat = (s.getV x).toNat + 256)) ∧
  (∀ (x y : Nibble) (s : State), ∃ t, exec (.subn x y) s = .next t ∧ t.pc = s.pc + 2#16 ∧
    OnlyRegs [x, 0xF#4] s t ∧
    (t.getV 0xF#4 = if (s.getV x).toNat ≤ (s.getV y).toNat then 1#8 else 0#8) ∧
    (x ≠ 0xF#4 → (t.getV x).toNat + (s.getV x).toNat + 256 * (t.getV 0xF#4).toNat = (s.getV y).toNat + 256))

/-- SHR and SHL: VF is the bit shifted out of Vx, and when x is not 15 result and bit together are the exact value (P7).
With x = 15 the flag is what remains: the spec's own decision D7 (log 15). -/
def Obligations.ShiftsByOneIntoFlag : Prop :=
  (∀ (x : Nibble) (s : State), ∃ t, exec (.shr x) s = .next t ∧ t.pc = s.pc + 2#16 ∧ OnlyRegs [x, 0xF#4] s t ∧
    (t.getV 0xF#4).toNat = (s.getV x).toNat % 2 ∧
    (x ≠ 0xF#4 → 2 * (t.getV x).toNat + (t.getV 0xF#4).toNat = (s.getV x).toNat)) ∧
  (∀ (x : Nibble) (s : State), ∃ t, exec (.shl x) s = .next t ∧ t.pc = s.pc + 2#16 ∧ OnlyRegs [x, 0xF#4] s t ∧
    (t.getV 0xF#4).toNat = (s.getV x).toNat / 128 ∧
    (x ≠ 0xF#4 → (t.getV x).toNat + 256 * (t.getV 0xF#4).toNat = 2 * (s.getV x).toNat))

/-- The six flag-writing instructions leave 0 or 1 in VF when they complete (R23, R36). -/
def Obligations.FlagWritersLeaveZeroOrOne : Prop :=
  ∀ (i : Instr) (s t : State), exec i s = .next t → t.signal = .none →
    ((∃ x y, i = .addReg x y ∨ i = .sub x y ∨ i = .subn x y) ∨ (∃ x, i = .shr x ∨ i = .shl x) ∨
      (∃ x y n, i = .drw x y n)) → t.getV 0xF#4 = 0#8 ∨ t.getV 0xF#4 = 1#8

/-! ## Memory and index -/

/-- R181: LD I loads the address, zero-extended and in bounds, and changes nothing else; Annn decodes to it. -/
def Obligations.LdILoadsAddress : Prop :=
  (∀ (nnn : Addr12) (s : State), ∃ t, exec (.ldI nnn) s = .next t ∧ t.i.toNat = nnn.toNat ∧ t.i.toNat ≤ 0xFFF ∧
    t = { s with pc := s.pc + 2#16, i := t.i, signal := .none }) ∧
  (∀ w : Word, w &&& 0xF000#16 = 0xA000#16 → decodeWord w = some (.ldI (nnnField w)))

/-- ADD I adds modulo 65536 without a flag (the spec's own decision D10, log 14); LD F gives 5 times the low nibble,
always inside the font region (D34, log 17). Nothing else changes. -/
def Obligations.IndexArithmetic : Prop :=
  (∀ (x : Nibble) (s : State), ∃ t, exec (.addI x) s = .next t ∧
    t.i.toNat = (s.i.toNat + (s.getV x).toNat) % 65536 ∧
    t = { s with pc := s.pc + 2#16, i := t.i, signal := .none }) ∧
  (∀ (x : Nibble) (s : State), ∃ t, exec (.ldF x) s = .next t ∧ t.i.toNat = 5 * ((s.getV x).toNat % 16) ∧
    t.i.toNat + 5 ≤ 80 ∧ t = { s with pc := s.pc + 2#16, i := t.i, signal := .none })

/-- LD B with its three bytes in memory stores the decimal digits, each 0..9, hundreds first (P8); every other byte and
everything else is kept, I too (the spec's own decision D9, log 14). -/
def Obligations.LdBStoresDecimalDigits : Prop :=
  ∀ (x : Nibble) (s : State), Memory.wf s.mem = true → s.i.toNat + 2 ≤ 4095 →
    ∃ t, exec (.ldB x) s = .next t ∧
      100 * (t.byteAt s.i.toNat).toNat + 10 * (t.byteAt (s.i.toNat + 1)).toNat + (t.byteAt (s.i.toNat + 2)).toNat
        = (s.getV x).toNat ∧
      (∀ k, k < 3 → (t.byteAt (s.i.toNat + k)).toNat ≤ 9) ∧ SameMemOutside s.i.toNat 3 s t ∧
      t = { s with pc := s.pc + 2#16, mem := t.mem, signal := .none }

/-- LD [I], Vx with its x + 1 bytes in memory stores V0..Vx, ascending; every other byte and everything else is kept,
I too (the spec's own decision D9, log 14). -/
def Obligations.BlockStoreStoresRegisters : Prop :=
  ∀ (x : Nibble) (s : State), Memory.wf s.mem = true → s.i.toNat + x.toNat ≤ 4095 →
    ∃ t, exec (.ldMemVx x) s = .next t ∧
      (∀ k : Nibble, k.toNat ≤ x.toNat → t.byteAt (s.i.toNat + k.toNat) = s.getV k) ∧
      SameMemOutside s.i.toNat (x.toNat + 1) s t ∧
      t = { s with pc := s.pc + 2#16, mem := t.mem, signal := .none }

/-- LD Vx, [I] with its x + 1 bytes in memory loads V0..Vx, ascending; every other register and everything else is
kept, I and memory too (the spec's own decision D9, log 14). -/
def Obligations.BlockLoadLoadsRegisters : Prop :=
  ∀ (x : Nibble) (s : State), s.i.toNat + x.toNat ≤ 4095 →
    ∃ t, exec (.ldVxMem x) s = .next t ∧
      (∀ k : Nibble, k.toNat ≤ x.toNat → t.getV k = s.byteAt (s.i.toNat + k.toNat)) ∧
      (∀ k : Nibble, x.toNat < k.toNat → t.getV k = s.getV k) ∧
      t = { s with pc := s.pc + 2#16, v := t.v, signal := .none }

/-- A block load after a block store with the same x and the same I gives back V0..Vx as they were at the store. -/
def Obligations.BlockStoreThenLoadRestores : Prop :=
  ∀ (x : Nibble) (s t u r : State), Memory.wf s.mem = true → s.i.toNat + x.toNat ≤ 4095 →
    exec (.ldMemVx x) s = .next t → u.mem = t.mem → u.i = s.i → exec (.ldVxMem x) u = .next r →
    ∀ k : Nibble, k.toNat ≤ x.toNat → r.getV k = s.getV k

/-- A transfer that does not fit in memory moves no byte at all, raises OutOfBounds with the lowest address out of
range, and only advances PC (the spec's own decisions D11, D12, D13, log 10, 13). -/
def Obligations.TransfersOutOfRangeOnlySignal : Prop :=
  (∀ (x : Nibble) (s : State), 4096 ≤ s.i.toNat + 2 → ∃ t, exec (.ldB x) s = .next t ∧
    RaisedOnly (.outOfBounds s.pc (some (BitVec.ofNat 16 (0xF033 + 256 * x.toNat))) (max s.i.toNat 4096)) s t) ∧
  (∀ (x : Nibble) (s : State), 4096 ≤ s.i.toNat + x.toNat → ∃ t, exec (.ldMemVx x) s = .next t ∧
    RaisedOnly (.outOfBounds s.pc (some (BitVec.ofNat 16 (0xF055 + 256 * x.toNat))) (max s.i.toNat 4096)) s t) ∧
  (∀ (x : Nibble) (s : State), 4096 ≤ s.i.toNat + x.toNat → ∃ t, exec (.ldVxMem x) s = .next t ∧
    RaisedOnly (.outOfBounds s.pc (some (BitVec.ofNat 16 (0xF065 + 256 * x.toNat))) (max s.i.toNat 4096)) s t) ∧
  (∀ (x y n : Nibble) (s : State), 1 ≤ n.toNat → 4096 ≤ s.i.toNat + n.toNat - 1 →
    ∃ t, exec (.drw x y n) s = .next t ∧
      RaisedOnly (.outOfBounds s.pc
        (some (BitVec.ofNat 16 (0xD000 + 256 * x.toNat + 16 * y.toNat + n.toNat))) (max s.i.toNat 4096)) s t)

/-! ## Timers -/

/-- R191: LD DT sets the delay timer from the register, whatever the count, and changes nothing else; Fx15 decodes to
it. -/
def Obligations.LdDtSetsDelayTimer : Prop :=
  (∀ (x : Nibble) (s : State), ∃ t, exec (.ldDtVx x) s = .next t ∧ t.dt = s.getV x ∧
    t = { s with pc := s.pc + 2#16, dt := t.dt, signal := .none }) ∧
  (∀ w : Word, w &&& 0xF0FF#16 = 0xF015#16 → decodeWord w = some (.ldDtVx (xField w)))

/-- LD Vx, DT reads the delay timer and LD ST sets the sound timer; nothing else changes. -/
def Obligations.TimerCopies : Prop :=
  (∀ (x : Nibble) (s : State), ∃ t, exec (.ldVxDt x) s = .next t ∧ t.getV x = s.dt ∧ t.pc = s.pc + 2#16 ∧
    OnlyRegs [x] s t) ∧
  (∀ (x : Nibble) (s : State), ∃ t, exec (.ldStVx x) s = .next t ∧ t.st = s.getV x ∧
    t = { s with pc := s.pc + 2#16, st := t.st, signal := .none })

/-- `n` ticks take each timer to `max(v - n, 0)` and change nothing else; the sum form is the spec's inference in
R222. -/
def Obligations.TicksCountDownToZero : Prop :=
  ∀ (n : Nat) (s : State), ∃ t, t = Nat.iterate State.tickTimers n s ∧
    t.dt.toNat = s.dt.toNat - n ∧ t.st.toNat = s.st.toNat - n ∧ t = { s with dt := t.dt, st := t.st }

/-! ## Input -/

/-- SKP skips when the key named by the low nibble of Vx is down and SKNP when it is up; nothing else changes. The low
nibble is the spec's own decision D18 (log 17). -/
def Obligations.KeySkips : Prop :=
  (∀ (x : Nibble) (s : State), ∃ t, exec (.skp x) s = .next t ∧ OnlyRegs [] s t ∧
    ∀ k : Nibble, k.toNat = (s.getV x).toNat % 16 →
      t.pc = if s.keyDown? k = true then s.pc + 4#16 else s.pc + 2#16) ∧
  (∀ (x : Nibble) (s : State), ∃ t, exec (.sknp x) s = .next t ∧ OnlyRegs [] s t ∧
    ∀ k : Nibble, k.toNat = (s.getV x).toNat % 16 →
      t.pc = if s.keyDown? k = false then s.pc + 4#16 else s.pc + 2#16)

/-- LD Vx, K with a key down completes at once with the least key down. Level sensitivity is the spec's own decision D35
(log 18). -/
def Obligations.WaitForKeyTakesLeastKey : Prop :=
  ∀ (x k : Nibble) (s : State), s.keyDown? k = true → (∀ j : Nibble, j.toNat < k.toNat → s.keyDown? j = false) →
    ∃ t, exec (.ldVxK x) s = .next t ∧ (t.getV x).toNat = k.toNat ∧ t.pc = s.pc + 2#16 ∧ OnlyRegs [x] s t

/-- LD Vx, K with every key up changes nothing at all: PC is `pc0` again, the signal is `none`; and while every key is up,
any number of steps leave the machine there (S9). Re-decoding without a waiting mode is the spec's own decision D28
(log 18). -/
def Obligations.WaitForKeyStaysPut : Prop :=
  (∀ (x : Nibble) (s : State), (∀ k, s.keyDown? k = false) → exec (.ldVxK x) s = .next { s with signal := .none }) ∧
  (∀ (x : Nibble) (s : State) (n : Nat), s.fetch = some (encode (.ldVxK x)) → (∀ k, s.keyDown? k = false) →
    Sys2Proof.core.run (n + 1) s = .next { s with signal := .none })

/-- R224: `key_up(k)` clears KEY[k] and changes nothing else, so the other keys keep their state; on a key that is up it
changes nothing. The keys are independent: presses reach any set of keys that are down. R223: `key_down(k)` sets KEY[k] and
changes nothing else; on a key that is down it changes nothing. -/
def Obligations.KeyEventsChangeOneKey : Prop :=
  (∀ (k : Nibble) (s : State), (s.releaseKey k).keyDown? k = false ∧
    (∀ j, j ≠ k → (s.releaseKey k).keyDown? j = s.keyDown? j) ∧
    s.releaseKey k = { s with key := (s.releaseKey k).key } ∧
    (s.keyDown? k = false → s.releaseKey k = s)) ∧
  (∀ (k : Nibble) (s : State), (s.pressKey k).keyDown? k = true ∧
    (∀ j, j ≠ k → (s.pressKey k).keyDown? j = s.keyDown? j) ∧
    s.pressKey k = { s with key := (s.pressKey k).key } ∧ (s.keyDown? k = true → s.pressKey k = s)) ∧
  (∀ (down : List Nibble) (s : State), (∀ k, s.keyDown? k = false) →
    ∀ k, (down.foldl State.pressKey s).keyDown? k = decide (k ∈ down))

/-! ## Random -/

/-- RND puts the random byte under the mask into Vx: every bit the mask lacks is 0, nothing is said of the others; the byte
is consumed and nothing else changes (R211). A step of RND that is given the byte `b` uses `b`, and of several bytes the host
has fixed each RND gets the next (R210). Where the host has fixed none, `rndByte` is a free value (log 3). -/
def Obligations.RndMasksTheRandomByte : Prop :=
  (∀ (x : Nibble) (nn : Byte) (s : State), ∃ t, exec (.rnd x nn) s = .next t ∧
    t.getV x = s.rndByte &&& nn ∧ (∀ k, nn.getLsbD k = false → (t.getV x).getLsbD k = false) ∧
    (∀ b rest, s.random.pending = b :: rest → t.getV x = b &&& nn ∧ t.random.pending = rest) ∧
    SameRegsBut [x] s t ∧
    t = { s with pc := s.pc + 2#16, v := t.v, random := s.random.next, signal := .none }) ∧
  (∀ (x : Nibble) (nn b : Byte) (s : State), s.fetch = some (encode (.rnd x nn)) →
    ∃ t, stepWith b s = .next t ∧ t.getV x = b &&& nn ∧ SameRegsBut [x] s t ∧
      t = { s with pc := s.pc + 2#16, v := t.v, random := t.random, signal := .none })

/-! ## Drawing -/

/-- R201 for a sprite of at most 15 rows: a cell is flipped exactly when a set bit of the sprite maps to it, and the
collision is reported exactly when one of those cells was on. (That no two bits meet is the spec's inference in R201.) -/
def Obligations.BlitFlipsTheCoveredCells : Prop :=
  ∀ (x0 y0 : Nat) (sprite : List Byte) (f : Frame), sprite.length ≤ 15 →
    (∀ r c, r < 32 → c < 64 →
      ((cellAt (drawSprite x0 y0 sprite f).1 r c ≠ cellAt f r c) ↔ SpriteCovers x0 y0 sprite r c)) ∧
    ((drawSprite x0 y0 sprite f).2 = true ↔
      ∃ r c, r < 32 ∧ c < 64 ∧ SpriteCovers x0 y0 sprite r c ∧ cellAt f r c = true)

/-- DRW with its sprite in memory blits it at (Vx, Vy), the old VF included as a coordinate, and leaves the collision in
VF; with n = 0 for any I (the spec's own decision D19, log 20). Nothing else changes, I neither (D9, log 14). -/
def Obligations.DrwBlitsTheSpriteAtI : Prop :=
  ∀ (x y n : Nibble) (s : State), n.toNat = 0 ∨ s.i.toNat + n.toNat - 1 ≤ 4095 →
    ∃ t, exec (.drw x y n) s = .next t ∧
      (t.fb, t.getV 0xF#4 == 1#8) = drawSprite (s.getV x).toNat (s.getV y).toNat (spriteAt s n) s.fb ∧
      (t.getV 0xF#4 = 0#8 ∨ t.getV 0xF#4 = 1#8) ∧ SameRegsBut [0xF#4] s t ∧
      t = { s with pc := s.pc + 2#16, v := t.v, fb := t.fb, signal := .none }

/-- R203 (a), (d), (e), derived there: two identical draws restore the display; two draws give the same display in either
order; coordinates count modulo 64 and modulo 32. In place of R203 (c), which R201 does not bear out (log 34), what follows
from R201: the second of two identical draws reports a collision exactly when some cell the sprite covers was off before the
first. -/
def Obligations.BlitTwiceRestoresAndBlitsCommute : Prop :=
  (∀ (x0 y0 : Nat) (sprite : List Byte) (f : Frame), sprite.length ≤ 15 →
    (drawSprite x0 y0 sprite (drawSprite x0 y0 sprite f).1).1 = f ∧
    ((drawSprite x0 y0 sprite (drawSprite x0 y0 sprite f).1).2 = true ↔
      ∃ r c, r < 32 ∧ c < 64 ∧ SpriteCovers x0 y0 sprite r c ∧ cellAt f r c = false)) ∧
  (∀ (x0 y0 x1 y1 : Nat) (a b : List Byte) (f : Frame),
    (drawSprite x1 y1 b (drawSprite x0 y0 a f).1).1 = (drawSprite x0 y0 a (drawSprite x1 y1 b f).1).1) ∧
  (∀ (x0 y0 : Nat) (a : List Byte) (f : Frame), drawSprite x0 y0 a f = drawSprite (x0 % 64) (y0 % 32) a f)

/-- R203 (c) as the spec words it, for every display: the second of two identical draws collides exactly when the sprite
has a set bit. Expected to FAIL: where every covered cell was on before the first draw, the second meets none that is on
(log 34). -/
def Obligations.SecondIdenticalDrawAlwaysCollides : Prop :=
  ∀ (x0 y0 : Nat) (sprite : List Byte) (f : Frame), sprite.length ≤ 15 →
    ((drawSprite x0 y0 sprite (drawSprite x0 y0 sprite f).1).2 = true ↔ ∃ b ∈ sprite, b ≠ 0#8)

/-- R203 (b), derived there: a draw onto a clear display turns on as many cells as the sprite has set bits, and reports
no collision; drawn again there, it reports a collision exactly when it has a set bit (R203 (c) where it holds). -/
def Obligations.BlitOnClearDisplayLightsItsBits : Prop :=
  ∀ (x0 y0 : Nat) (sprite : List Byte), sprite.length ≤ 15 →
    litCells (drawSprite x0 y0 sprite clearFrame).1 = setBits sprite ∧
    (drawSprite x0 y0 sprite clearFrame).2 = false ∧
    ((drawSprite x0 y0 sprite (drawSprite x0 y0 sprite clearFrame).1).2 = true ↔ ∃ b ∈ sprite, b ≠ 0#8)

/-! ## The host's operations -/

/-- `load` copies a fitting image to 0x200 on and changes nothing else; it is admitted exactly on a fresh machine with a
fitting image. The size and the moment are the spec's own decision D23 (log 26). Every other operation is admitted in every
state and performs its operation of R221 to R225: a step ends freshness, a reset renews it, a tick and the key events keep
it (the mark is the model's own, log 26). -/
def Obligations.LoadPlacesTheImage : Prop :=
  (∀ (image : List Byte) (s : State), Memory.wf s.mem = true → imageFits image = true →
    ∃ t, s.loadImage image = some t ∧
      (∀ (k : Nat) (h : k < image.length), t.byteAt (0x200 + k) = image[k]) ∧
      SameMemOutside 0x200 image.length s t ∧ t = { s with mem := t.mem }) ∧
  (∀ (h : Session) (image : List Byte), h.fresh = true → imageFits image = true →
    ∃ t, h.state.loadImage image = some t ∧ h.apply (.load image) = some ⟨t, true⟩) ∧
  (∀ (h : Session) (image : List Byte), h.fresh = false → h.apply (.load image) = none) ∧
  (∀ (h : Session) (image : List Byte), imageFits image = false → h.apply (.load image) = none) ∧
  (∀ (h : Session) (rnd : Byte), ∃ t, stepWith rnd h.state = .next t ∧ h.apply (.step rnd) = some ⟨t, false⟩) ∧
  (∀ h : Session, h.apply .reset = some ⟨h.state.hostReset, true⟩) ∧
  (∀ h : Session, h.apply .tick = some ⟨h.state.tickTimers, h.fresh⟩) ∧
  (∀ (h : Session) (k : Nibble), h.apply (.keyDown k) = some ⟨h.state.pressKey k, h.fresh⟩) ∧
  (∀ (h : Session) (k : Nibble), h.apply (.keyUp k) = some ⟨h.state.releaseKey k, h.fresh⟩)

/-- `reset()` gives the reset state from any state, all of it but the random source, which is
outside the machine (the spec's own decision D27, log 3), and a load is admitted again. -/
def Obligations.HostResetReinitialises : Prop :=
  ∀ h : Session, ∃ h', h.apply .reset = some h' ∧ h'.fresh = true ∧
    h'.state = { State.reset with random := h.state.random }

/-- The framebuffer accessor lists the 2048 cells in row-major order (R228; the order is the spec's own decision D33,
log 22). -/
def Obligations.FramebufferIsRowMajor : Prop :=
  ∀ s : State, s.frameCells.length = 2048 ∧
    ∀ r c, r < 32 → c < 64 → s.frameCells[r * 64 + c]? = some (cellAt s.fb r c)
end

