-- ==== Sys2Proof/Laws/Decode.lean ====
section
/-! SUPPORT. The fields of the words the encoder builds, the masks of the opcode map in terms of fields, and the byte
order. -/
namespace Sys2Proof

/-! ### The fields of a packed word -/

section
variable (op : Nat) (hop : op < 16) (x y n : Nibble) (nn : Byte) (nnn : Addr12)
include hop

theorem opField_packA : (opField (packA op nnn)).toNat = op := by
  simp [opField, packA, Nat.shiftRight_eq_div_pow]; omega

theorem opField_packXI : (opField (packXI op x nn)).toNat = op := by
  simp [opField, packXI, Nat.shiftRight_eq_div_pow]; omega

theorem opField_packXYN : (opField (packXYN op x y n)).toNat = op := by
  simp [opField, packXYN, Nat.shiftRight_eq_div_pow]; omega

theorem toNat_packA : (packA op nnn).toNat = op * 4096 + nnn.toNat := by simp [packA]; omega

theorem toNat_packXI : (packXI op x nn).toNat = op * 4096 + x.toNat * 256 + nn.toNat := by simp [packXI]; omega

theorem toNat_packXYN : (packXYN op x y n).toNat = op * 4096 + x.toNat * 256 + y.toNat * 16 + n.toNat := by
  simp [packXYN]; omega
end

section
variable (op : Nat) (x y n : Nibble) (nn : Byte) (nnn : Addr12)

@[simp] theorem nnnField_packA : nnnField (packA op nnn) = nnn := by
  apply BitVec.eq_of_toNat_eq; simp [nnnField, packA]; omega

@[simp] theorem xField_packXI : xField (packXI op x nn) = x := by
  apply BitVec.eq_of_toNat_eq; simp [xField, packXI, Nat.shiftRight_eq_div_pow]; omega

@[simp] theorem nnField_packXI : nnField (packXI op x nn) = nn := by
  apply BitVec.eq_of_toNat_eq; simp [nnField, packXI]; omega

@[simp] theorem xField_packXYN : xField (packXYN op x y n) = x := by
  apply BitVec.eq_of_toNat_eq; simp [xField, packXYN, Nat.shiftRight_eq_div_pow]; omega

@[simp] theorem yField_packXYN : yField (packXYN op x y n) = y := by
  apply BitVec.eq_of_toNat_eq; simp [yField, packXYN, Nat.shiftRight_eq_div_pow]; omega

@[simp] theorem nField_packXYN : nField (packXYN op x y n) = n := by
  apply BitVec.eq_of_toNat_eq; simp [nField, packXYN]; omega
end

/-! ### A word in terms of its fields -/

theorem toNat_opField (w : Word) : (opField w).toNat = w.toNat / 4096 := by
  simp [opField, Nat.shiftRight_eq_div_pow]; omega
theorem toNat_xField (w : Word) : (xField w).toNat = w.toNat / 256 % 16 := by
  simp [xField, Nat.shiftRight_eq_div_pow]
theorem toNat_yField (w : Word) : (yField w).toNat = w.toNat / 16 % 16 := by
  simp [yField, Nat.shiftRight_eq_div_pow]
theorem toNat_nField (w : Word) : (nField w).toNat = w.toNat % 16 := by simp [nField]
theorem toNat_nnField (w : Word) : (nnField w).toNat = w.toNat % 256 := by simp [nnField]
theorem toNat_nnnField (w : Word) : (nnnField w).toNat = w.toNat % 4096 := by simp [nnnField]

/-! ### The four masks of the opcode map (30_encoding.md R92) -/

/-- Mask 0xF000 keeps the family nibble. -/
theorem and_maskA (w : Word) : (w &&& 0xF000#16).toNat = (opField w).toNat * 4096 := by
  have : w &&& 0xF000#16 = (w >>> 12) <<< 12 := by
    ext i hi; simp [BitVec.getElem_shiftLeft]
    interval_cases i <;> simp [BitVec.getLsbD_eq_getElem]
  rw [this, toNat_opField]
  simp [Nat.shiftRight_eq_div_pow, Nat.shiftLeft_eq]; omega

/-- Mask 0xF00F keeps the family nibble and the low nibble. -/
theorem and_maskXY (w : Word) : (w &&& 0xF00F#16).toNat = (opField w).toNat * 4096 + (nField w).toNat := by
  have h : w &&& 0xF00F#16 = (w &&& 0xF000#16) ||| (nField w).setWidth 16 := by
    ext i hi; simp [nField]; interval_cases i <;> simp [BitVec.getLsbD_eq_getElem]
  have d : (w &&& 0xF000#16) &&& (nField w).setWidth 16 = 0#16 := by
    ext i hi; simp [nField]; interval_cases i <;> simp
  rw [h, ← BitVec.add_eq_or_of_and_eq_zero _ _ d, BitVec.toNat_add, and_maskA, toNat_opField]
  simp [toNat_nField]; omega

/-- Mask 0xF0FF keeps the family nibble and the low byte. -/
theorem and_maskX (w : Word) : (w &&& 0xF0FF#16).toNat = (opField w).toNat * 4096 + (nnField w).toNat := by
  have h : w &&& 0xF0FF#16 = (w &&& 0xF000#16) ||| (nnField w).setWidth 16 := by
    ext i hi; simp [nnField]; interval_cases i <;> simp [BitVec.getLsbD_eq_getElem]
  have d : (w &&& 0xF000#16) &&& (nnField w).setWidth 16 = 0#16 := by
    ext i hi; simp [nnField]; interval_cases i <;> simp
  rw [h, ← BitVec.add_eq_or_of_and_eq_zero _ _ d, BitVec.toNat_add, and_maskA, toNat_opField]
  simp [toNat_nnField]; omega

/-! ### Byte order -/

@[simp] theorem hiByte_wordOfBytes (hi lo : Byte) : hiByte (wordOfBytes hi lo) = hi := by
  apply BitVec.eq_of_toNat_eq; simp [hiByte, wordOfBytes, Nat.shiftRight_eq_div_pow]; omega

@[simp] theorem loByte_wordOfBytes (hi lo : Byte) : loByte (wordOfBytes hi lo) = lo := by
  apply BitVec.eq_of_toNat_eq; simp [loByte, wordOfBytes]; omega

@[simp] theorem wordOfBytes_hiByte_loByte (w : Word) : wordOfBytes (hiByte w) (loByte w) = w := by
  apply BitVec.eq_of_toNat_eq; simp [hiByte, loByte, wordOfBytes, Nat.shiftRight_eq_div_pow]; omega

end Sys2Proof
end

