-- ==== Sys2Proof/Laws/Display.lean ====
section
/-! SUPPORT. The blit cell by cell: a sprite flips a set of cells that does not depend on the display. -/
namespace Sys2Proof.Machine

/-- Two displays are equal when their 2048 cells are. -/
theorem frame_ext {f g : Frame} (h : ∀ r c, r < 32 → c < 64 → cellAt f r c = cellAt g r c) : f = g := by
  apply Vector.ext
  intro r hr
  apply BitVec.eq_of_getLsbD_eq
  intro c hc
  have := h r c hr hc
  simpa [cellAt, Nat.mod_eq_of_lt hr, Nat.mod_eq_of_lt hc] using this

@[simp] theorem cellAt_clearFrame (r c : Nat) : cellAt clearFrame r c = false := by simp [cellAt, clearFrame]

theorem cellAt_mod (f : Frame) (r c : Nat) : cellAt f (r % 32) (c % 64) = cellAt f r c := by simp [cellAt]

/-- A toggle flips the one wrapped cell it names. -/
theorem cellAt_toggleCell (f : Frame) (r c r' c' : Nat) :
    cellAt (toggleCell f r c) r' c' = (cellAt f r' c' ^^ decide (r % 32 = r' % 32 ∧ c % 64 = c' % 64)) := by
  simp only [cellAt, toggleCell, Vector.getElem_set]
  by_cases hr : r % 32 = r' % 32
  · simp only [hr, if_true, BitVec.getLsbD_xor, BitVec.getLsbD_twoPow, true_and]
    congr 1
    simp
    exact fun _ => Nat.mod_lt _ (by decide)
  · simp [hr]

/-- Whether sprite byte `b`, drawn at display row `y` and column `x0`, flips the cell (r, c) by its columns in `cs`. -/
def bitsFlip (x0 y : Nat) (b : Byte) (cs : List Nat) (r c : Nat) : Bool :=
  cs.foldl (fun acc k => acc ^^ (b.getLsbD (7 - k) && decide (y % 32 = r % 32 ∧ (x0 + k) % 64 = c % 64))) false

/-- Whether a sprite drawn from display row `y` on flips the cell (r, c). -/
def rowsFlip (x0 : Nat) : Nat → List Byte → Nat → Nat → Bool
  | _, [], _, _ => false
  | y, b :: bs, r, c => bitsFlip x0 y b (List.range 8) r c ^^ rowsFlip x0 (y + 1) bs r c

theorem foldl_xor_start (p : Nat → Bool) (cs : List Nat) (a : Bool) :
    cs.foldl (fun acc k => acc ^^ p k) a = (a ^^ cs.foldl (fun acc k => acc ^^ p k) false) := by
  induction cs generalizing a with
  | nil => simp
  | cons k cs ih => rw [List.foldl_cons, ih, List.foldl_cons, ih (false ^^ p k)]; cases a <;> simp

theorem cellAt_drawBits (x0 y : Nat) (b : Byte) (cs : List Nat) (d : Frame × Bool) (r c : Nat) :
    cellAt (cs.foldl (drawBit x0 y b) d).1 r c = (cellAt d.1 r c ^^ bitsFlip x0 y b cs r c) := by
  induction cs generalizing d with
  | nil => simp [bitsFlip]
  | cons k cs ih =>
    rw [List.foldl_cons, ih, bitsFlip, bitsFlip, List.foldl_cons, foldl_xor_start _ cs (false ^^ _)]
    unfold drawBit
    split
    · next h => simp [cellAt_toggleCell, h]
    · next h => simp [h]

/-- The display after a blit: every cell is flipped or kept as the sprite says, whatever it held. -/
theorem cellAt_drawRows (x0 y : Nat) (bs : List Byte) (d : Frame × Bool) (r c : Nat) :
    cellAt (drawRows x0 y bs d).1 r c = (cellAt d.1 r c ^^ rowsFlip x0 y bs r c) := by
  induction bs generalizing y d with
  | nil => simp [drawRows, rowsFlip]
  | cons b bs ih => rw [drawRows, ih, drawRow, cellAt_drawBits, rowsFlip, Bool.xor_assoc]

theorem cellAt_drawSprite (x0 y0 : Nat) (sp : List Byte) (f : Frame) (r c : Nat) :
    cellAt (drawSprite x0 y0 sp f).1 r c = (cellAt f r c ^^ rowsFlip x0 y0 sp r c) := cellAt_drawRows x0 y0 sp _ r c

end Sys2Proof.Machine
end

