-- ==== Sys2Proof/Laws/Flags.lean ====
section
/-! SUPPORT. Each arithmetic pair as exact integer arithmetic, and the derived operands as numbers. -/
namespace Sys2Proof.Machine

theorem toNat_flagByte (c : Bool) : (flagByte c).toNat = if c then 1 else 0 := by cases c <;> rfl

/-- A flag is 0x00 or 0x01 (10_state.md R23). -/
theorem flagByte_cases (c : Bool) : flagByte c = 0#8 ∨ flagByte c = 1#8 := by cases c <;> simp [flagByte]

theorem addWithCarry_fst (a b : Byte) : (addWithCarry a b).1 = a + b := by
  apply BitVec.eq_of_toNat_eq; simp [addWithCarry]

theorem subNoBorrow_fst (a b : Byte) : (subNoBorrow a b).1 = a - b := by
  apply BitVec.eq_of_toNat_eq; simp [subNoBorrow, BitVec.toNat_sub]; omega

/-- Sum and carry together are the exact sum. -/
theorem addWithCarry_exact (a b : Byte) :
    (addWithCarry a b).1.toNat + 256 * (addWithCarry a b).2.toNat = a.toNat + b.toNat := by
  simp only [addWithCarry, toNat_flagByte, BitVec.toNat_ofNat, decide_eq_true_eq]
  split <;> omega

/-- Difference and borrow together are the exact difference. -/
theorem subNoBorrow_exact (a b : Byte) :
    (subNoBorrow a b).1.toNat + b.toNat + 256 * (subNoBorrow a b).2.toNat = a.toNat + 256 := by
  simp only [subNoBorrow, toNat_flagByte, BitVec.toNat_ofNat, decide_eq_true_eq]
  split <;> omega

/-- Twice the shifted value and the bit shifted out together are the old value. -/
theorem shiftRightOne_exact (a : Byte) :
    2 * (shiftRightOne a).1.toNat + (shiftRightOne a).2.toNat = a.toNat := by
  have h : a.getLsbD 0 = decide (a.toNat % 2 = 1) := by simp [BitVec.getLsbD, Nat.testBit_zero]
  simp only [shiftRightOne, toNat_flagByte, BitVec.toNat_ofNat, h, decide_eq_true_eq]
  split <;> omega

/-- The shifted value and the bit shifted out together are twice the old value. -/
theorem shiftLeftOne_exact (a : Byte) :
    (shiftLeftOne a).1.toNat + 256 * (shiftLeftOne a).2.toNat = 2 * a.toNat := by
  have h : a.getLsbD 7 = decide (128 ≤ a.toNat) := by
    have ha := a.isLt
    rw [BitVec.getLsbD, Nat.testBit_eq_decide_div_mod_eq]
    congr 1
    simp
    omega
  simp only [shiftLeftOne, toNat_flagByte, BitVec.toNat_ofNat, h, decide_eq_true_eq]
  split <;> omega

theorem toNat_addrOf (nnn : Addr12) : (addrOf nnn).toNat = nnn.toNat := by simp [addrOf]; omega

theorem toNat_wordOf (b : Byte) : (wordOf b).toNat = b.toNat := by simp [wordOf]; omega

theorem toNat_lowNibble (b : Byte) : (lowNibble b).toNat = b.toNat % 16 := by simp [lowNibble]

theorem toNat_glyphAddr (d : Nibble) : (glyphAddr d).toNat = 5 * d.toNat := by simp [glyphAddr]; omega

@[simp] theorem length_bcdDigits (b : Byte) : (bcdDigits b).length = 3 := rfl

theorem length_blockRegs (x : Nibble) : (blockRegs x).length = x.toNat + 1 := by simp [blockRegs]

@[simp] theorem length_blockOf (s : State) (x : Nibble) : (s.blockOf x).length = x.toNat + 1 := by
  simp [State.blockOf, length_blockRegs]

/-- Byte `k` of a block is register `k`. -/
theorem getElem_blockOf (s : State) (x : Nibble) (k : Nat) (h : k < (s.blockOf x).length) :
    (s.blockOf x)[k] = s.getV (BitVec.ofNat 4 k) := by
  simp [State.blockOf, blockRegs]

end Sys2Proof.Machine
end

