-- ==== Sys2Proof/Laws/Memory.lean ====
section
/-! SUPPORT. The byte store: read after write, the other addresses, and the canonical form, which every operation
keeps. -/
namespace Sys2Proof.Machine

/-- In a memory whose addresses are all at least `lo`, a lower address is unlisted. -/
theorem Memory.read_of_lt {lo a : Nat} {m : Memory} (h : Memory.wfFrom lo m = true) (ha : a < lo) :
    Memory.read m a = initialByte a := by
  induction m generalizing lo with
  | nil => rfl
  | cons c m ih =>
    obtain ⟨k, b⟩ := c
    simp only [Memory.wfFrom, Bool.and_eq_true, decide_eq_true_eq] at h
    rw [Memory.read, if_neg (by omega)]
    exact ih h.2 (by omega)

theorem Memory.wfFrom_mono {lo lo' : Nat} {m : Memory} (h : Memory.wfFrom lo m = true) (hl : lo' ≤ lo) :
    Memory.wfFrom lo' m = true := by
  cases m with
  | nil => rfl
  | cons c m =>
    obtain ⟨k, b⟩ := c
    simp only [Memory.wfFrom, Bool.and_eq_true, decide_eq_true_eq] at h ⊢
    exact ⟨⟨⟨by omega, h.1.1.2⟩, h.1.2⟩, h.2⟩

theorem Memory.wfFrom_place {lo a : Nat} {b : Byte} {m : Memory} (hlo : lo ≤ a) (ha : a < Config.memSize)
    (h : Memory.wfFrom (a + 1) m = true) : Memory.wfFrom lo (Memory.place a b m) = true := by
  unfold Memory.place
  split
  · exact Memory.wfFrom_mono h (by omega)
  · next hb => simp [Memory.wfFrom, h, hlo, hb]; simpa using ha

theorem Memory.wfFrom_write {lo a : Nat} {b : Byte} {m : Memory} (hlo : lo ≤ a) (ha : a < Config.memSize)
    (h : Memory.wfFrom lo m = true) : Memory.wfFrom lo (Memory.write m a b) = true := by
  induction m generalizing lo with
  | nil => exact Memory.wfFrom_place hlo ha rfl
  | cons c m ih =>
    obtain ⟨k, d⟩ := c
    have h0 := h
    simp only [Memory.wfFrom, Bool.and_eq_true, decide_eq_true_eq] at h
    rw [Memory.write]
    split
    · refine Memory.wfFrom_place hlo ha ?_
      simp only [Memory.wfFrom, Bool.and_eq_true, decide_eq_true_eq]
      exact ⟨⟨⟨by omega, h.1.1.2⟩, h.1.2⟩, h.2⟩
    · split
      · next hk => subst hk; exact Memory.wfFrom_place hlo ha h.2
      · simp only [Memory.wfFrom, Bool.and_eq_true, decide_eq_true_eq]
        exact ⟨h.1, ih (by omega) h.2⟩

/-- Writing one byte of the address space keeps the canonical form. -/
theorem Memory.wf_write {m : Memory} {a : Nat} (b : Byte) (ha : a < Config.memSize) (h : Memory.wf m = true) :
    Memory.wf (Memory.write m a b) = true := Memory.wfFrom_write (Nat.zero_le a) ha h

/-- Writing bytes inside the address space keeps the canonical form. -/
theorem Memory.wf_writeList {m : Memory} {a : Nat} {bs : List Byte} (ha : a + bs.length ≤ Config.memSize)
    (h : Memory.wf m = true) : Memory.wf (Memory.writeList m a bs) = true := by
  induction bs generalizing m a with
  | nil => exact h
  | cons b bs ih =>
    simp only [List.length_cons] at ha
    exact ih (by omega) (Memory.wf_write b (by omega) h)

theorem Memory.read_place_ne {m : Memory} {a a' : Nat} (b : Byte) (h : a' ≠ a) :
    Memory.read (Memory.place a b m) a' = Memory.read m a' := by
  unfold Memory.place
  split
  · rfl
  · rw [Memory.read, if_neg (Ne.symm h)]

/-- A write leaves every other address alone. -/
theorem Memory.read_write_ne {m : Memory} {a a' : Nat} (b : Byte) (h : a' ≠ a) :
    Memory.read (Memory.write m a b) a' = Memory.read m a' := by
  induction m with
  | nil => exact Memory.read_place_ne b h
  | cons c m ih =>
    obtain ⟨k, d⟩ := c
    rw [Memory.write]
    split
    · exact Memory.read_place_ne b h
    · split
      · next hk => subst hk; rw [Memory.read_place_ne b h, Memory.read, if_neg (Ne.symm h)]
      · simp only [Memory.read, ih]

theorem Memory.read_write_self_from {lo a : Nat} {m : Memory} (b : Byte) (h : Memory.wfFrom lo m = true) :
    Memory.read (Memory.write m a b) a = b := by
  have place {m' : Memory} (hm : Memory.wfFrom (a + 1) m' = true) : Memory.read (Memory.place a b m') a = b := by
    unfold Memory.place
    split
    · next hb => rw [hb]; exact Memory.read_of_lt hm (by omega)
    · rw [Memory.read, if_pos rfl]
  induction m generalizing lo with
  | nil => exact place rfl
  | cons c m ih =>
    obtain ⟨k, d⟩ := c
    simp only [Memory.wfFrom, Bool.and_eq_true, decide_eq_true_eq] at h
    rw [Memory.write]
    split
    · refine place ?_
      simp only [Memory.wfFrom, Bool.and_eq_true, decide_eq_true_eq]
      exact ⟨⟨⟨by omega, h.1.1.2⟩, h.1.2⟩, h.2⟩
    · split
      · next hk => subst hk; exact place h.2
      · next hk => rw [Memory.read, if_neg (Ne.symm hk)]; exact ih h.2

/-- In a canonical memory a read after a write to the same address gives the byte written (20_memory.md R64). -/
theorem Memory.read_write_self {m : Memory} {a : Nat} (b : Byte) (h : Memory.wf m = true) :
    Memory.read (Memory.write m a b) a = b := Memory.read_write_self_from b h

/-- A block of writes leaves every address outside it alone. -/
theorem Memory.read_writeList_outside {m : Memory} {a a' : Nat} {bs : List Byte}
    (h : a' < a ∨ a + bs.length ≤ a') : Memory.read (Memory.writeList m a bs) a' = Memory.read m a' := by
  induction bs generalizing m a with
  | nil => rfl
  | cons b bs ih =>
    simp only [List.length_cons] at h
    rw [Memory.writeList, ih (by omega), Memory.read_write_ne b (by omega)]

/-- In a canonical memory a block of writes inside the address space reads back byte for byte. -/
theorem Memory.read_writeList_inside {m : Memory} {a k : Nat} {bs : List Byte} (hw : Memory.wf m = true)
    (ha : a + bs.length ≤ Config.memSize) (hk : k < bs.length) :
    Memory.read (Memory.writeList m a bs) (a + k) = bs[k] := by
  induction bs generalizing m a k with
  | nil => simp at hk
  | cons b bs ih =>
    simp only [List.length_cons] at ha hk
    rw [Memory.writeList]
    have hw' := Memory.wf_write b (by omega : a < Config.memSize) hw
    cases k with
    | zero =>
      rw [Memory.read_writeList_outside (by omega)]
      simpa using Memory.read_write_self b hw
    | succ k =>
      have := ih hw' (by omega : a + 1 + bs.length ≤ Config.memSize) (by omega : k < bs.length)
      simpa [Nat.add_assoc, Nat.add_comm 1 k] using this

end Sys2Proof.Machine
end

