-- ==== Sys2Proof/Laws/State.lean ====
section
/-! SUPPORT. One lemma per field per update, all tagged simp, so that no later proof unfolds a record update. -/
namespace Sys2Proof.Machine

variable (s : State)

/-! ### advance -/

@[simp] theorem State.advance_mem : (s.advance).mem = s.mem := rfl
@[simp] theorem State.advance_v : (s.advance).v = s.v := rfl
@[simp] theorem State.advance_i : (s.advance).i = s.i := rfl
@[simp] theorem State.advance_pc : (s.advance).pc = s.pc + 2#16 := rfl
@[simp] theorem State.advance_stk : (s.advance).stk = s.stk := rfl
@[simp] theorem State.advance_sp : (s.advance).sp = s.sp := rfl
@[simp] theorem State.advance_dt : (s.advance).dt = s.dt := rfl
@[simp] theorem State.advance_st : (s.advance).st = s.st := rfl
@[simp] theorem State.advance_fb : (s.advance).fb = s.fb := rfl
@[simp] theorem State.advance_key : (s.advance).key = s.key := rfl
@[simp] theorem State.advance_signal : (s.advance).signal = .none := rfl
@[simp] theorem State.advance_faulted : (s.advance).faulted = s.faulted := rfl
@[simp] theorem State.advance_random : (s.advance).random = s.random := rfl

/-! ### setV -/

@[simp] theorem State.setV_mem (x : Nibble) (b : Byte) : (s.setV x b).mem = s.mem := rfl
@[simp] theorem State.setV_v (x : Nibble) (b : Byte) : (s.setV x b).v = s.v.set x.toNat b x.isLt := rfl
@[simp] theorem State.setV_i (x : Nibble) (b : Byte) : (s.setV x b).i = s.i := rfl
@[simp] theorem State.setV_pc (x : Nibble) (b : Byte) : (s.setV x b).pc = s.pc := rfl
@[simp] theorem State.setV_stk (x : Nibble) (b : Byte) : (s.setV x b).stk = s.stk := rfl
@[simp] theorem State.setV_sp (x : Nibble) (b : Byte) : (s.setV x b).sp = s.sp := rfl
@[simp] theorem State.setV_dt (x : Nibble) (b : Byte) : (s.setV x b).dt = s.dt := rfl
@[simp] theorem State.setV_st (x : Nibble) (b : Byte) : (s.setV x b).st = s.st := rfl
@[simp] theorem State.setV_fb (x : Nibble) (b : Byte) : (s.setV x b).fb = s.fb := rfl
@[simp] theorem State.setV_key (x : Nibble) (b : Byte) : (s.setV x b).key = s.key := rfl
@[simp] theorem State.setV_signal (x : Nibble) (b : Byte) : (s.setV x b).signal = s.signal := rfl
@[simp] theorem State.setV_faulted (x : Nibble) (b : Byte) : (s.setV x b).faulted = s.faulted := rfl
@[simp] theorem State.setV_random (x : Nibble) (b : Byte) : (s.setV x b).random = s.random := rfl

/-! ### setI -/

@[simp] theorem State.setI_mem (a : Word) : (s.setI a).mem = s.mem := rfl
@[simp] theorem State.setI_v (a : Word) : (s.setI a).v = s.v := rfl
@[simp] theorem State.setI_i (a : Word) : (s.setI a).i = a := rfl
@[simp] theorem State.setI_pc (a : Word) : (s.setI a).pc = s.pc := rfl
@[simp] theorem State.setI_stk (a : Word) : (s.setI a).stk = s.stk := rfl
@[simp] theorem State.setI_sp (a : Word) : (s.setI a).sp = s.sp := rfl
@[simp] theorem State.setI_dt (a : Word) : (s.setI a).dt = s.dt := rfl
@[simp] theorem State.setI_st (a : Word) : (s.setI a).st = s.st := rfl
@[simp] theorem State.setI_fb (a : Word) : (s.setI a).fb = s.fb := rfl
@[simp] theorem State.setI_key (a : Word) : (s.setI a).key = s.key := rfl
@[simp] theorem State.setI_signal (a : Word) : (s.setI a).signal = s.signal := rfl
@[simp] theorem State.setI_faulted (a : Word) : (s.setI a).faulted = s.faulted := rfl
@[simp] theorem State.setI_random (a : Word) : (s.setI a).random = s.random := rfl

/-! ### setPc -/

@[simp] theorem State.setPc_mem (a : Word) : (s.setPc a).mem = s.mem := rfl
@[simp] theorem State.setPc_v (a : Word) : (s.setPc a).v = s.v := rfl
@[simp] theorem State.setPc_i (a : Word) : (s.setPc a).i = s.i := rfl
@[simp] theorem State.setPc_pc (a : Word) : (s.setPc a).pc = a := rfl
@[simp] theorem State.setPc_stk (a : Word) : (s.setPc a).stk = s.stk := rfl
@[simp] theorem State.setPc_sp (a : Word) : (s.setPc a).sp = s.sp := rfl
@[simp] theorem State.setPc_dt (a : Word) : (s.setPc a).dt = s.dt := rfl
@[simp] theorem State.setPc_st (a : Word) : (s.setPc a).st = s.st := rfl
@[simp] theorem State.setPc_fb (a : Word) : (s.setPc a).fb = s.fb := rfl
@[simp] theorem State.setPc_key (a : Word) : (s.setPc a).key = s.key := rfl
@[simp] theorem State.setPc_signal (a : Word) : (s.setPc a).signal = s.signal := rfl
@[simp] theorem State.setPc_faulted (a : Word) : (s.setPc a).faulted = s.faulted := rfl
@[simp] theorem State.setPc_random (a : Word) : (s.setPc a).random = s.random := rfl

/-! ### setDt -/

@[simp] theorem State.setDt_mem (b : Byte) : (s.setDt b).mem = s.mem := rfl
@[simp] theorem State.setDt_v (b : Byte) : (s.setDt b).v = s.v := rfl
@[simp] theorem State.setDt_i (b : Byte) : (s.setDt b).i = s.i := rfl
@[simp] theorem State.setDt_pc (b : Byte) : (s.setDt b).pc = s.pc := rfl
@[simp] theorem State.setDt_stk (b : Byte) : (s.setDt b).stk = s.stk := rfl
@[simp] theorem State.setDt_sp (b : Byte) : (s.setDt b).sp = s.sp := rfl
@[simp] theorem State.setDt_dt (b : Byte) : (s.setDt b).dt = b := rfl
@[simp] theorem State.setDt_st (b : Byte) : (s.setDt b).st = s.st := rfl
@[simp] theorem State.setDt_fb (b : Byte) : (s.setDt b).fb = s.fb := rfl
@[simp] theorem State.setDt_key (b : Byte) : (s.setDt b).key = s.key := rfl
@[simp] theorem State.setDt_signal (b : Byte) : (s.setDt b).signal = s.signal := rfl
@[simp] theorem State.setDt_faulted (b : Byte) : (s.setDt b).faulted = s.faulted := rfl
@[simp] theorem State.setDt_random (b : Byte) : (s.setDt b).random = s.random := rfl

/-! ### setSt -/

@[simp] theorem State.setSt_mem (b : Byte) : (s.setSt b).mem = s.mem := rfl
@[simp] theorem State.setSt_v (b : Byte) : (s.setSt b).v = s.v := rfl
@[simp] theorem State.setSt_i (b : Byte) : (s.setSt b).i = s.i := rfl
@[simp] theorem State.setSt_pc (b : Byte) : (s.setSt b).pc = s.pc := rfl
@[simp] theorem State.setSt_stk (b : Byte) : (s.setSt b).stk = s.stk := rfl
@[simp] theorem State.setSt_sp (b : Byte) : (s.setSt b).sp = s.sp := rfl
@[simp] theorem State.setSt_dt (b : Byte) : (s.setSt b).dt = s.dt := rfl
@[simp] theorem State.setSt_st (b : Byte) : (s.setSt b).st = b := rfl
@[simp] theorem State.setSt_fb (b : Byte) : (s.setSt b).fb = s.fb := rfl
@[simp] theorem State.setSt_key (b : Byte) : (s.setSt b).key = s.key := rfl
@[simp] theorem State.setSt_signal (b : Byte) : (s.setSt b).signal = s.signal := rfl
@[simp] theorem State.setSt_faulted (b : Byte) : (s.setSt b).faulted = s.faulted := rfl
@[simp] theorem State.setSt_random (b : Byte) : (s.setSt b).random = s.random := rfl

/-! ### setFb -/

@[simp] theorem State.setFb_mem (f : Frame) : (s.setFb f).mem = s.mem := rfl
@[simp] theorem State.setFb_v (f : Frame) : (s.setFb f).v = s.v := rfl
@[simp] theorem State.setFb_i (f : Frame) : (s.setFb f).i = s.i := rfl
@[simp] theorem State.setFb_pc (f : Frame) : (s.setFb f).pc = s.pc := rfl
@[simp] theorem State.setFb_stk (f : Frame) : (s.setFb f).stk = s.stk := rfl
@[simp] theorem State.setFb_sp (f : Frame) : (s.setFb f).sp = s.sp := rfl
@[simp] theorem State.setFb_dt (f : Frame) : (s.setFb f).dt = s.dt := rfl
@[simp] theorem State.setFb_st (f : Frame) : (s.setFb f).st = s.st := rfl
@[simp] theorem State.setFb_fb (f : Frame) : (s.setFb f).fb = f := rfl
@[simp] theorem State.setFb_key (f : Frame) : (s.setFb f).key = s.key := rfl
@[simp] theorem State.setFb_signal (f : Frame) : (s.setFb f).signal = s.signal := rfl
@[simp] theorem State.setFb_faulted (f : Frame) : (s.setFb f).faulted = s.faulted := rfl
@[simp] theorem State.setFb_random (f : Frame) : (s.setFb f).random = s.random := rfl

/-! ### consumeByte -/

@[simp] theorem State.consumeByte_mem : (s.consumeByte).mem = s.mem := rfl
@[simp] theorem State.consumeByte_v : (s.consumeByte).v = s.v := rfl
@[simp] theorem State.consumeByte_i : (s.consumeByte).i = s.i := rfl
@[simp] theorem State.consumeByte_pc : (s.consumeByte).pc = s.pc := rfl
@[simp] theorem State.consumeByte_stk : (s.consumeByte).stk = s.stk := rfl
@[simp] theorem State.consumeByte_sp : (s.consumeByte).sp = s.sp := rfl
@[simp] theorem State.consumeByte_dt : (s.consumeByte).dt = s.dt := rfl
@[simp] theorem State.consumeByte_st : (s.consumeByte).st = s.st := rfl
@[simp] theorem State.consumeByte_fb : (s.consumeByte).fb = s.fb := rfl
@[simp] theorem State.consumeByte_key : (s.consumeByte).key = s.key := rfl
@[simp] theorem State.consumeByte_signal : (s.consumeByte).signal = s.signal := rfl
@[simp] theorem State.consumeByte_faulted : (s.consumeByte).faulted = s.faulted := rfl
@[simp] theorem State.consumeByte_random : (s.consumeByte).random = s.random.next := rfl

/-! ### raise -/

@[simp] theorem State.raise_mem (g : Signal) : (s.raise g).mem = s.mem := rfl
@[simp] theorem State.raise_v (g : Signal) : (s.raise g).v = s.v := rfl
@[simp] theorem State.raise_i (g : Signal) : (s.raise g).i = s.i := rfl
@[simp] theorem State.raise_pc (g : Signal) : (s.raise g).pc = s.pc := rfl
@[simp] theorem State.raise_stk (g : Signal) : (s.raise g).stk = s.stk := rfl
@[simp] theorem State.raise_sp (g : Signal) : (s.raise g).sp = s.sp := rfl
@[simp] theorem State.raise_dt (g : Signal) : (s.raise g).dt = s.dt := rfl
@[simp] theorem State.raise_st (g : Signal) : (s.raise g).st = s.st := rfl
@[simp] theorem State.raise_fb (g : Signal) : (s.raise g).fb = s.fb := rfl
@[simp] theorem State.raise_key (g : Signal) : (s.raise g).key = s.key := rfl
@[simp] theorem State.raise_signal (g : Signal) : (s.raise g).signal = g := rfl
@[simp] theorem State.raise_faulted (g : Signal) : (s.raise g).faulted = true := rfl
@[simp] theorem State.raise_random (g : Signal) : (s.raise g).random = s.random := rfl

/-! ### skipIf -/

@[simp] theorem State.skipIf_mem (c : Bool) : (s.skipIf c).mem = s.mem := by cases c <;> rfl
@[simp] theorem State.skipIf_v (c : Bool) : (s.skipIf c).v = s.v := by cases c <;> rfl
@[simp] theorem State.skipIf_i (c : Bool) : (s.skipIf c).i = s.i := by cases c <;> rfl
@[simp] theorem State.skipIf_pc (c : Bool) : (s.skipIf c).pc = if c then s.pc + 2#16 else s.pc := by cases c <;> rfl
@[simp] theorem State.skipIf_stk (c : Bool) : (s.skipIf c).stk = s.stk := by cases c <;> rfl
@[simp] theorem State.skipIf_sp (c : Bool) : (s.skipIf c).sp = s.sp := by cases c <;> rfl
@[simp] theorem State.skipIf_dt (c : Bool) : (s.skipIf c).dt = s.dt := by cases c <;> rfl
@[simp] theorem State.skipIf_st (c : Bool) : (s.skipIf c).st = s.st := by cases c <;> rfl
@[simp] theorem State.skipIf_fb (c : Bool) : (s.skipIf c).fb = s.fb := by cases c <;> rfl
@[simp] theorem State.skipIf_key (c : Bool) : (s.skipIf c).key = s.key := by cases c <;> rfl
@[simp] theorem State.skipIf_signal (c : Bool) : (s.skipIf c).signal = s.signal := by cases c <;> rfl
@[simp] theorem State.skipIf_faulted (c : Bool) : (s.skipIf c).faulted = s.faulted := by cases c <;> rfl
@[simp] theorem State.skipIf_random (c : Bool) : (s.skipIf c).random = s.random := by cases c <;> rfl

/-! ### tickTimers -/

@[simp] theorem State.tickTimers_mem : (s.tickTimers).mem = s.mem := rfl
@[simp] theorem State.tickTimers_v : (s.tickTimers).v = s.v := rfl
@[simp] theorem State.tickTimers_i : (s.tickTimers).i = s.i := rfl
@[simp] theorem State.tickTimers_pc : (s.tickTimers).pc = s.pc := rfl
@[simp] theorem State.tickTimers_stk : (s.tickTimers).stk = s.stk := rfl
@[simp] theorem State.tickTimers_sp : (s.tickTimers).sp = s.sp := rfl
@[simp] theorem State.tickTimers_dt : (s.tickTimers).dt = countDown s.dt := rfl
@[simp] theorem State.tickTimers_st : (s.tickTimers).st = countDown s.st := rfl
@[simp] theorem State.tickTimers_fb : (s.tickTimers).fb = s.fb := rfl
@[simp] theorem State.tickTimers_key : (s.tickTimers).key = s.key := rfl
@[simp] theorem State.tickTimers_signal : (s.tickTimers).signal = s.signal := rfl
@[simp] theorem State.tickTimers_faulted : (s.tickTimers).faulted = s.faulted := rfl
@[simp] theorem State.tickTimers_random : (s.tickTimers).random = s.random := rfl

/-! ### setKey -/

@[simp] theorem State.setKey_mem (k : Nibble) (d : Bool) : (s.setKey k d).mem = s.mem := rfl
@[simp] theorem State.setKey_v (k : Nibble) (d : Bool) : (s.setKey k d).v = s.v := rfl
@[simp] theorem State.setKey_i (k : Nibble) (d : Bool) : (s.setKey k d).i = s.i := rfl
@[simp] theorem State.setKey_pc (k : Nibble) (d : Bool) : (s.setKey k d).pc = s.pc := rfl
@[simp] theorem State.setKey_stk (k : Nibble) (d : Bool) : (s.setKey k d).stk = s.stk := rfl
@[simp] theorem State.setKey_sp (k : Nibble) (d : Bool) : (s.setKey k d).sp = s.sp := rfl
@[simp] theorem State.setKey_dt (k : Nibble) (d : Bool) : (s.setKey k d).dt = s.dt := rfl
@[simp] theorem State.setKey_st (k : Nibble) (d : Bool) : (s.setKey k d).st = s.st := rfl
@[simp] theorem State.setKey_fb (k : Nibble) (d : Bool) : (s.setKey k d).fb = s.fb := rfl
@[simp] theorem State.setKey_key (k : Nibble) (d : Bool) : (s.setKey k d).key = s.key.set k.toNat d k.isLt := rfl
@[simp] theorem State.setKey_signal (k : Nibble) (d : Bool) : (s.setKey k d).signal = s.signal := rfl
@[simp] theorem State.setKey_faulted (k : Nibble) (d : Bool) : (s.setKey k d).faulted = s.faulted := rfl
@[simp] theorem State.setKey_random (k : Nibble) (d : Bool) : (s.setKey k d).random = s.random := rfl

/-! ### giveByte -/

@[simp] theorem State.giveByte_mem (b : Byte) : (s.giveByte b).mem = s.mem := rfl
@[simp] theorem State.giveByte_v (b : Byte) : (s.giveByte b).v = s.v := rfl
@[simp] theorem State.giveByte_i (b : Byte) : (s.giveByte b).i = s.i := rfl
@[simp] theorem State.giveByte_pc (b : Byte) : (s.giveByte b).pc = s.pc := rfl
@[simp] theorem State.giveByte_stk (b : Byte) : (s.giveByte b).stk = s.stk := rfl
@[simp] theorem State.giveByte_sp (b : Byte) : (s.giveByte b).sp = s.sp := rfl
@[simp] theorem State.giveByte_dt (b : Byte) : (s.giveByte b).dt = s.dt := rfl
@[simp] theorem State.giveByte_st (b : Byte) : (s.giveByte b).st = s.st := rfl
@[simp] theorem State.giveByte_fb (b : Byte) : (s.giveByte b).fb = s.fb := rfl
@[simp] theorem State.giveByte_key (b : Byte) : (s.giveByte b).key = s.key := rfl
@[simp] theorem State.giveByte_signal (b : Byte) : (s.giveByte b).signal = s.signal := rfl
@[simp] theorem State.giveByte_faulted (b : Byte) : (s.giveByte b).faulted = s.faulted := rfl
@[simp] theorem State.giveByte_random (b : Byte) : (s.giveByte b).random = { s.random with pending := [b] } := rfl

/-! ### dropBytes -/

@[simp] theorem State.dropBytes_mem : (s.dropBytes).mem = s.mem := rfl
@[simp] theorem State.dropBytes_v : (s.dropBytes).v = s.v := rfl
@[simp] theorem State.dropBytes_i : (s.dropBytes).i = s.i := rfl
@[simp] theorem State.dropBytes_pc : (s.dropBytes).pc = s.pc := rfl
@[simp] theorem State.dropBytes_stk : (s.dropBytes).stk = s.stk := rfl
@[simp] theorem State.dropBytes_sp : (s.dropBytes).sp = s.sp := rfl
@[simp] theorem State.dropBytes_dt : (s.dropBytes).dt = s.dt := rfl
@[simp] theorem State.dropBytes_st : (s.dropBytes).st = s.st := rfl
@[simp] theorem State.dropBytes_fb : (s.dropBytes).fb = s.fb := rfl
@[simp] theorem State.dropBytes_key : (s.dropBytes).key = s.key := rfl
@[simp] theorem State.dropBytes_signal : (s.dropBytes).signal = s.signal := rfl
@[simp] theorem State.dropBytes_faulted : (s.dropBytes).faulted = s.faulted := rfl
@[simp] theorem State.dropBytes_random : (s.dropBytes).random = { s.random with pending := [] } := rfl

end Sys2Proof.Machine
end

