-- ==== Sys2Proof/Laws/Ops.lean ====
section
/-! SUPPORT. One lemma per shared operation that says everything it can do: registers, the stack, memory behind the
range check, fetch. -/
namespace Sys2Proof.Machine

variable (s : State)

/-! ### General registers -/

/-- A register reads back what was written to it; every other register keeps its value. -/
theorem State.getV_setV (x y : Nibble) (b : Byte) : (s.setV x b).getV y = if y = x then b else s.getV y := by
  simp only [State.getV, State.setV, Vector.getElem_set]
  by_cases h : y = x
  · subst h; simp
  · have : ¬ x.toNat = y.toNat := fun e => h (BitVec.eq_of_toNat_eq e.symm)
    simp [h, this]

@[simp] theorem State.getV_setV_self (x : Nibble) (b : Byte) : (s.setV x b).getV x = b := by simp [State.getV_setV]

theorem State.getV_setV_ne {x y : Nibble} (b : Byte) (h : y ≠ x) : (s.setV x b).getV y = s.getV y := by
  simp [State.getV_setV, h]

/-- `getV` looks at the register file alone. -/
theorem State.getV_of_v {s t : State} (h : t.v = s.v) (x : Nibble) : t.getV x = s.getV x := by
  simp [State.getV, h]

/-- `byteAt` looks at memory alone. -/
theorem State.byteAt_of_mem {s t : State} (h : t.mem = s.mem) (a : Nat) : t.byteAt a = s.byteAt a := by
  simp [State.byteAt, h]

@[simp] theorem State.advance_getV (x : Nibble) : s.advance.getV x = s.getV x := rfl
@[simp] theorem State.setI_getV (a : Word) (x : Nibble) : (s.setI a).getV x = s.getV x := rfl
@[simp] theorem State.setPc_getV (a : Word) (x : Nibble) : (s.setPc a).getV x = s.getV x := rfl
@[simp] theorem State.setDt_getV (b : Byte) (x : Nibble) : (s.setDt b).getV x = s.getV x := rfl
@[simp] theorem State.setSt_getV (b : Byte) (x : Nibble) : (s.setSt b).getV x = s.getV x := rfl
@[simp] theorem State.setFb_getV (f : Frame) (x : Nibble) : (s.setFb f).getV x = s.getV x := rfl
@[simp] theorem State.consumeByte_getV (x : Nibble) : s.consumeByte.getV x = s.getV x := rfl
@[simp] theorem State.raise_getV (g : Signal) (x : Nibble) : (s.raise g).getV x = s.getV x := rfl
@[simp] theorem State.skipIf_getV (c : Bool) (x : Nibble) : (s.skipIf c).getV x = s.getV x := by cases c <;> rfl

@[simp] theorem State.advance_byteAt (a : Nat) : s.advance.byteAt a = s.byteAt a := rfl
@[simp] theorem State.setV_byteAt (x : Nibble) (b : Byte) (a : Nat) : (s.setV x b).byteAt a = s.byteAt a := rfl
@[simp] theorem State.setI_byteAt (w : Word) (a : Nat) : (s.setI w).byteAt a = s.byteAt a := rfl
@[simp] theorem State.setPc_byteAt (w : Word) (a : Nat) : (s.setPc w).byteAt a = s.byteAt a := rfl
@[simp] theorem State.setDt_byteAt (b : Byte) (a : Nat) : (s.setDt b).byteAt a = s.byteAt a := rfl
@[simp] theorem State.setSt_byteAt (b : Byte) (a : Nat) : (s.setSt b).byteAt a = s.byteAt a := rfl
@[simp] theorem State.setFb_byteAt (f : Frame) (a : Nat) : (s.setFb f).byteAt a = s.byteAt a := rfl
@[simp] theorem State.consumeByte_byteAt (a : Nat) : s.consumeByte.byteAt a = s.byteAt a := rfl
@[simp] theorem State.raise_byteAt (g : Signal) (a : Nat) : (s.raise g).byteAt a = s.byteAt a := rfl
@[simp] theorem State.skipIf_byteAt (c : Bool) (a : Nat) : (s.skipIf c).byteAt a = s.byteAt a := by cases c <;> rfl

@[simp] theorem State.advance_keyDown (k : Nibble) : s.advance.keyDown? k = s.keyDown? k := rfl
@[simp] theorem State.advance_leastKeyDown : s.advance.leastKeyDown = s.leastKeyDown := rfl

/-- The two writes of a flag-writing instruction (43_register_alu.md R159): VF ends as the flag, whichever `x` is. -/
theorem State.setResultAndFlag_getV (x : Nibble) (r : Byte × Byte) (y : Nibble) :
    (s.setResultAndFlag x r).getV y = if y = vf then r.2 else if y = x then r.1 else s.getV y := by
  simp [State.setResultAndFlag, State.getV_setV]

/-- A flag-writing instruction's two writes touch the register file alone. -/
theorem State.setResultAndFlag_eq (x : Nibble) (r : Byte × Byte) :
    s.setResultAndFlag x r = { s with v := (s.setResultAndFlag x r).v } := rfl

/-- Loading registers touches the register file alone. -/
theorem State.setBlock_eq (bs : List Byte) (k : Nat) : s.setBlock k bs = { s with v := (s.setBlock k bs).v } := by
  induction bs generalizing s k with
  | nil => rfl
  | cons b bs ih =>
    rw [State.setBlock, ih]
    rfl

/-- Register `y` after loading `bs` into the registers from `k` on. -/
theorem State.setBlock_getV (bs : List Byte) (k : Nat) (hk : k + bs.length ≤ 16) (y : Nibble) :
    (s.setBlock k bs).getV y =
      if h : k ≤ y.toNat ∧ y.toNat < k + bs.length then bs[y.toNat - k]'(by omega) else s.getV y := by
  induction bs generalizing s k with
  | nil => simp [State.setBlock]
  | cons b bs ih =>
    have hy := y.isLt
    rw [State.setBlock, ih _ _ (by simp at hk; omega), State.getV_setV]
    have e : y = BitVec.ofNat 4 k ↔ y.toNat = k := by
      constructor
      · intro h; subst h; simp at hk ⊢; omega
      · intro h; subst h; simp
    simp only [e, List.length_cons]
    by_cases h1 : y.toNat = k
    · subst h1
      simp
    · by_cases h2 : k + 1 ≤ y.toNat ∧ y.toNat < k + 1 + bs.length
      · have h3 : k ≤ y.toNat ∧ y.toNat < k + (bs.length + 1) := by omega
        rw [dif_pos h2, dif_pos h3]
        have e : y.toNat - k = (y.toNat - (k + 1)) + 1 := by omega
        simp [e]
      · have h3 : ¬ (k ≤ y.toNat ∧ y.toNat < k + (bs.length + 1)) := by omega
        rw [dif_neg h2, dif_neg h3, if_neg h1]

/-! ### The stack -/

/-- A push succeeds exactly below capacity. -/
theorem State.push_of_lt (a : Word) (h : s.sp.val < 16) :
    s.push a = some { s with stk := s.stk.set s.sp.val a h, sp := ⟨s.sp.val + 1, Nat.succ_lt_succ h⟩ } := by
  simp [State.push, h]

theorem State.push_of_full (a : Word) (h : s.sp.val = 16) : s.push a = none := by simp [State.push, h]

/-- A pop succeeds exactly when something is held; it reads the slot under the pointer. -/
theorem State.pop_of_pos (h : 0 < s.sp.val) :
    s.pop = some (s.stk[s.sp.val - 1]'(by have := s.sp.isLt; omega),
      { s with sp := ⟨s.sp.val - 1, by have := s.sp.isLt; omega⟩ }) := by
  cases s with
  | mk mem v i pc stk sp dt st fb key signal faulted random =>
    obtain ⟨k, hk⟩ := sp
    cases k with
    | zero => simp at h
    | succ k => simp [State.pop]

theorem State.pop_of_empty (h : s.sp.val = 0) : s.pop = none := by
  cases s with
  | mk mem v i pc stk sp dt st fb key signal faulted random =>
    obtain ⟨k, hk⟩ := sp
    simp at h; subst h; rfl

/-! ### Memory behind the range check -/

theorem inRange_iff (a n : Nat) : inRange a n = true ↔ n = 0 ∨ a + n ≤ 4096 := by
  simp [inRange]; omega

/-- A load answers exactly when the whole range is in memory, with its bytes in rising order. -/
theorem State.load_of_inRange {a n : Nat} (h : inRange a n = true) :
    s.load a n = some ((List.range n).map fun k => s.byteAt (a + k)) := by simp [State.load, h]

theorem State.load_of_outOfRange {a n : Nat} (h : inRange a n = false) : s.load a n = none := by simp [State.load, h]

/-- A store answers exactly when the whole range is in memory; it changes memory alone. -/
theorem State.store_of_inRange {a : Nat} {bs : List Byte} (h : inRange a bs.length = true) :
    s.store a bs = some { s with mem := Memory.writeList s.mem a bs } := by simp [State.store, h]

theorem State.store_of_outOfRange {a : Nat} {bs : List Byte} (h : inRange a bs.length = false) :
    s.store a bs = none := by simp [State.store, h]

/-- A fetch in range reads two bytes, high byte first (20_memory.md R60). -/
theorem State.fetch_of_le (h : s.pc.toNat ≤ 4094) :
    s.fetch = some (wordOfBytes (s.byteAt s.pc.toNat) (s.byteAt (s.pc.toNat + 1))) := by
  have : inRange s.pc.toNat 2 = true := by rw [inRange_iff]; omega
  simp [State.fetch, State.load_of_inRange s this, List.range_succ]

/-- A fetch at 4095 or above answers nothing (40_step_cycle.md R121). -/
theorem State.fetch_of_ge (h : 4095 ≤ s.pc.toNat) : s.fetch = none := by
  have : inRange s.pc.toNat 2 = false := by
    rw [Bool.eq_false_iff, Ne, inRange_iff]; omega
  simp [State.fetch, State.load_of_outOfRange s this]

/-! ### The random source -/

@[simp] theorem RandomSource.byte_pending (b : Byte) (bs : List Byte) (id k : Nat) :
    RandomSource.byte ⟨b :: bs, id, k⟩ = b := rfl
@[simp] theorem RandomSource.byte_free (id k : Nat) : RandomSource.byte ⟨[], id, k⟩ = Config.rnd id k := rfl
@[simp] theorem RandomSource.next_pending (r : RandomSource) : r.next.pending = r.pending.tail := rfl
@[simp] theorem RandomSource.next_draws (r : RandomSource) : r.next.draws = r.draws + 1 := rfl
@[simp] theorem State.giveByte_rndByte (b : Byte) : (s.giveByte b).rndByte = b := rfl
@[simp] theorem State.giveByte_getV (b : Byte) (x : Nibble) : (s.giveByte b).getV x = s.getV x := rfl
@[simp] theorem State.giveByte_byteAt (b : Byte) (a : Nat) : (s.giveByte b).byteAt a = s.byteAt a := rfl
@[simp] theorem State.giveByte_fetch (b : Byte) : (s.giveByte b).fetch = s.fetch := rfl
@[simp] theorem State.dropBytes_getV (x : Nibble) : s.dropBytes.getV x = s.getV x := rfl
@[simp] theorem State.dropBytes_byteAt (a : Nat) : s.dropBytes.byteAt a = s.byteAt a := rfl

/-- A step with its byte answers a next state exactly when the step given that byte does, without what was left of it. -/
theorem stepWith_eq_next_iff (b : Byte) (t : State) :
    stepWith b s = .next t ↔ ∃ u, step (s.giveByte b) = .next u ∧ u.dropBytes = t := by
  unfold stepWith
  split <;> simp_all

/-! ### The end of a run -/

/-- What END_OF_RUN's suggested predicate says (49_host_operations.md R232). -/
theorem State.atSelfJump_iff : s.atSelfJump = true ↔
    ∃ w nnn, s.fetch = some w ∧ decodeWord w = some (.jp nnn) ∧ s.pc.toNat = nnn.toNat := by
  unfold State.atSelfJump
  cases hf : s.fetch with
  | none => simp
  | some w => cases hd : decodeWord w with
    | none => simp [hd]
    | some i => cases i <;> simp [hd]

/-- With a predicate that never holds, a run until it is a run. -/
theorem Session.runUntil_never (h : Session) (ops : List HostOp) : h.runUntil (fun _ => false) ops = h.run ops := by
  induction ops generalizing h with
  | nil => rfl
  | cons o os ih => simp [Session.runUntil, Session.run, ih]

/-- A run that ends by END_OF_RUN is a run of the operations it performed. -/
theorem Session.runUntil_is_run (e : State → Bool) (h h' : Session) (ops : List HostOp)
    (hr : h.runUntil e ops = some h') : ∃ n, h.run (ops.take n) = some h' := by
  induction ops generalizing h with
  | nil => exact ⟨0, hr⟩
  | cons o os ih =>
    unfold Session.runUntil at hr
    split at hr
    · exact ⟨0, hr⟩
    · obtain ⟨k, hk, hr⟩ := Option.bind_eq_some_iff.1 hr
      obtain ⟨n, hn⟩ := ih k hr
      exact ⟨n + 1, by simp [Session.run, hk, hn]⟩

/-! ### Keys -/

theorem State.keyDown_setKey (k j : Nibble) (d : Bool) :
    (s.setKey k d).keyDown? j = if j = k then d else s.keyDown? j := by
  simp only [State.keyDown?, State.setKey, Vector.getElem_set]
  by_cases h : j = k
  · subst h; simp
  · have : ¬ k.toNat = j.toNat := fun e => h (BitVec.eq_of_toNat_eq e.symm)
    simp [h, this]

theorem mem_nibbles (k : Nibble) : k ∈ nibbles :=
  List.mem_map.2 ⟨k.toNat, List.mem_range.2 k.isLt, by simp⟩

/-- No key is down exactly when the search for the least one finds none (46_input.md R198). -/
theorem State.leastKeyDown_eq_none_iff : s.leastKeyDown = none ↔ ∀ k, s.keyDown? k = false := by
  simp [State.leastKeyDown, mem_nibbles]

/-- What the search finds is down, and every lesser key is up. -/
theorem State.leastKeyDown_eq_some {k : Nibble} (h : s.leastKeyDown = some k) :
    s.keyDown? k = true ∧ ∀ j : Nibble, j.toNat < k.toNat → s.keyDown? j = false := by
  refine ⟨by simpa using List.find?_some h, fun j hj => ?_⟩
  rw [State.leastKeyDown, nibbles, List.find?_map, Option.map_eq_some_iff] at h
  obtain ⟨n, hn, rfl⟩ := h
  rw [List.find?_range_eq_some] at hn
  have hlt : n < 16 := by simpa using hn.2.1
  have := hn.2.2 j.toNat (by simp at hj; omega)
  simpa using this

end Sys2Proof.Machine
end

