-- ==== Sys2Proof/Laws/PerInstr.lean ====
section
/-! SUPPORT. The per-instruction family `OpcodeMapRow`: the word the encoder gives an instruction lies in a row of the
opcode map (30_encoding.md R95), and that row's fields give the instruction back. -/
namespace Sys2Proof.Laws.OpcodeMapRow

/-- Some row of the opcode map covers the instruction's word and rebuilds the instruction. -/
def Statement (i : Instr) : Prop := ∃ r ∈ opcodeMap, r.covers (encode i) = true ∧ r.build (encode i) = i

/-- A row by its place in the map. -/
theorem of_row (k : Nat) (i : Instr) (hk : k < opcodeMap.length)
    (h : (opcodeMap[k]).covers (encode i) = true ∧ (opcodeMap[k]).build (encode i) = i) : Statement i :=
  ⟨opcodeMap[k], List.getElem_mem hk, h⟩

theorem covers_iff (r : OpcodeRow) (w : Word) : r.covers w = true ↔ w &&& r.mask = r.pattern := by
  simp [OpcodeRow.covers]

theorem covers_a (op : Nat) (hop : op < 16) (nnn : Addr12) (b : Word → Instr) :
    (OpcodeRow.mk 0xF000 (BitVec.ofNat 16 (op * 4096)) b).covers (packA op nnn) = true := by
  rw [covers_iff]; apply BitVec.eq_of_toNat_eq
  rw [show (OpcodeRow.mk 0xF000 (BitVec.ofNat 16 (op * 4096)) b).mask = 0xF000#16 from rfl, and_maskA,
    opField_packA op hop]
  simp; omega

theorem covers_xi (op : Nat) (hop : op < 16) (x : Nibble) (nn : Byte) (b : Word → Instr) :
    (OpcodeRow.mk 0xF000 (BitVec.ofNat 16 (op * 4096)) b).covers (packXI op x nn) = true := by
  rw [covers_iff]; apply BitVec.eq_of_toNat_eq
  rw [show (OpcodeRow.mk 0xF000 (BitVec.ofNat 16 (op * 4096)) b).mask = 0xF000#16 from rfl, and_maskA,
    opField_packXI op hop]
  simp; omega

theorem covers_xyn (op : Nat) (hop : op < 16) (x y n : Nibble) (b : Word → Instr) :
    (OpcodeRow.mk 0xF000 (BitVec.ofNat 16 (op * 4096)) b).covers (packXYN op x y n) = true := by
  rw [covers_iff]; apply BitVec.eq_of_toNat_eq
  rw [show (OpcodeRow.mk 0xF000 (BitVec.ofNat 16 (op * 4096)) b).mask = 0xF000#16 from rfl, and_maskA,
    opField_packXYN op hop]
  simp; omega

theorem covers_xy (op : Nat) (hop : op < 16) (x y n : Nibble) (b : Word → Instr) :
    (OpcodeRow.mk 0xF00F (BitVec.ofNat 16 (op * 4096 + n.toNat)) b).covers (packXYN op x y n) = true := by
  rw [covers_iff]; apply BitVec.eq_of_toNat_eq
  rw [show (OpcodeRow.mk 0xF00F (BitVec.ofNat 16 (op * 4096 + n.toNat)) b).mask = 0xF00F#16 from rfl, and_maskXY,
    opField_packXYN op hop]
  simp; omega

theorem covers_x (op : Nat) (hop : op < 16) (x : Nibble) (nn : Byte) (b : Word → Instr) :
    (OpcodeRow.mk 0xF0FF (BitVec.ofNat 16 (op * 4096 + nn.toNat)) b).covers (packXI op x nn) = true := by
  rw [covers_iff]; apply BitVec.eq_of_toNat_eq
  rw [show (OpcodeRow.mk 0xF0FF (BitVec.ofNat 16 (op * 4096 + nn.toNat)) b).mask = 0xF0FF#16 from rfl, and_maskX,
    opField_packXI op hop]
  simp; omega

theorem cls : Statement .cls :=
  of_row 0 _ (by decide) ⟨by decide, by simp [opcodeMap, opcodeMapLow, opcodeMapAlu, opcodeMapHigh, encode]⟩
theorem ret : Statement .ret :=
  of_row 1 _ (by decide) ⟨by decide, by simp [opcodeMap, opcodeMapLow, opcodeMapAlu, opcodeMapHigh, encode]⟩
theorem jp (nnn : Addr12) : Statement (.jp nnn) :=
  of_row 2 _ (by decide) ⟨covers_a 1 (by decide) nnn _, by simp [opcodeMap, opcodeMapLow, opcodeMapAlu, opcodeMapHigh, encode]⟩
theorem call (nnn : Addr12) : Statement (.call nnn) :=
  of_row 3 _ (by decide) ⟨covers_a 2 (by decide) nnn _, by simp [opcodeMap, opcodeMapLow, opcodeMapAlu, opcodeMapHigh, encode]⟩
theorem seImm (x : Nibble) (nn : Byte) : Statement (.seImm x nn) :=
  of_row 4 _ (by decide) ⟨covers_xi 3 (by decide) x nn _, by simp [opcodeMap, opcodeMapLow, opcodeMapAlu, opcodeMapHigh, encode]⟩
theorem sneImm (x : Nibble) (nn : Byte) : Statement (.sneImm x nn) :=
  of_row 5 _ (by decide) ⟨covers_xi 4 (by decide) x nn _, by simp [opcodeMap, opcodeMapLow, opcodeMapAlu, opcodeMapHigh, encode]⟩
theorem seReg (x : Nibble) (y : Nibble) : Statement (.seReg x y) :=
  of_row 6 _ (by decide) ⟨covers_xy 5 (by decide) x y 0#4 _, by simp [opcodeMap, opcodeMapLow, opcodeMapAlu, opcodeMapHigh, encode]⟩
theorem ldImm (x : Nibble) (nn : Byte) : Statement (.ldImm x nn) :=
  of_row 7 _ (by decide) ⟨covers_xi 6 (by decide) x nn _, by simp [opcodeMap, opcodeMapLow, opcodeMapAlu, opcodeMapHigh, encode]⟩
theorem addImm (x : Nibble) (nn : Byte) : Statement (.addImm x nn) :=
  of_row 8 _ (by decide) ⟨covers_xi 7 (by decide) x nn _, by simp [opcodeMap, opcodeMapLow, opcodeMapAlu, opcodeMapHigh, encode]⟩
theorem ldReg (x : Nibble) (y : Nibble) : Statement (.ldReg x y) :=
  of_row 9 _ (by decide) ⟨covers_xy 8 (by decide) x y 0#4 _, by simp [opcodeMap, opcodeMapLow, opcodeMapAlu, opcodeMapHigh, encode]⟩
theorem or (x : Nibble) (y : Nibble) : Statement (.or x y) :=
  of_row 10 _ (by decide) ⟨covers_xy 8 (by decide) x y 1#4 _, by simp [opcodeMap, opcodeMapLow, opcodeMapAlu, opcodeMapHigh, encode]⟩
theorem and (x : Nibble) (y : Nibble) : Statement (.and x y) :=
  of_row 11 _ (by decide) ⟨covers_xy 8 (by decide) x y 2#4 _, by simp [opcodeMap, opcodeMapLow, opcodeMapAlu, opcodeMapHigh, encode]⟩
theorem xor (x : Nibble) (y : Nibble) : Statement (.xor x y) :=
  of_row 12 _ (by decide) ⟨covers_xy 8 (by decide) x y 3#4 _, by simp [opcodeMap, opcodeMapLow, opcodeMapAlu, opcodeMapHigh, encode]⟩
theorem addReg (x : Nibble) (y : Nibble) : Statement (.addReg x y) :=
  of_row 13 _ (by decide) ⟨covers_xy 8 (by decide) x y 4#4 _, by simp [opcodeMap, opcodeMapLow, opcodeMapAlu, opcodeMapHigh, encode]⟩
theorem sub (x : Nibble) (y : Nibble) : Statement (.sub x y) :=
  of_row 14 _ (by decide) ⟨covers_xy 8 (by decide) x y 5#4 _, by simp [opcodeMap, opcodeMapLow, opcodeMapAlu, opcodeMapHigh, encode]⟩
theorem shr (x : Nibble) : Statement (.shr x) :=
  of_row 15 _ (by decide) ⟨covers_xy 8 (by decide) x 0#4 6#4 _, by simp [opcodeMap, opcodeMapLow, opcodeMapAlu, opcodeMapHigh, encode]⟩
theorem subn (x : Nibble) (y : Nibble) : Statement (.subn x y) :=
  of_row 16 _ (by decide) ⟨covers_xy 8 (by decide) x y 7#4 _, by simp [opcodeMap, opcodeMapLow, opcodeMapAlu, opcodeMapHigh, encode]⟩
theorem shl (x : Nibble) : Statement (.shl x) :=
  of_row 17 _ (by decide) ⟨covers_xy 8 (by decide) x 0#4 14#4 _, by simp [opcodeMap, opcodeMapLow, opcodeMapAlu, opcodeMapHigh, encode]⟩
theorem sneReg (x : Nibble) (y : Nibble) : Statement (.sneReg x y) :=
  of_row 18 _ (by decide) ⟨covers_xy 9 (by decide) x y 0#4 _, by simp [opcodeMap, opcodeMapLow, opcodeMapAlu, opcodeMapHigh, encode]⟩
theorem ldI (nnn : Addr12) : Statement (.ldI nnn) :=
  of_row 19 _ (by decide) ⟨covers_a 10 (by decide) nnn _, by simp [opcodeMap, opcodeMapLow, opcodeMapAlu, opcodeMapHigh, encode]⟩
theorem jpV0 (nnn : Addr12) : Statement (.jpV0 nnn) :=
  of_row 20 _ (by decide) ⟨covers_a 11 (by decide) nnn _, by simp [opcodeMap, opcodeMapLow, opcodeMapAlu, opcodeMapHigh, encode]⟩
theorem rnd (x : Nibble) (nn : Byte) : Statement (.rnd x nn) :=
  of_row 21 _ (by decide) ⟨covers_xi 12 (by decide) x nn _, by simp [opcodeMap, opcodeMapLow, opcodeMapAlu, opcodeMapHigh, encode]⟩
theorem drw (x : Nibble) (y : Nibble) (n : Nibble) : Statement (.drw x y n) :=
  of_row 22 _ (by decide) ⟨covers_xyn 13 (by decide) x y n _, by simp [opcodeMap, opcodeMapLow, opcodeMapAlu, opcodeMapHigh, encode]⟩
theorem skp (x : Nibble) : Statement (.skp x) :=
  of_row 23 _ (by decide) ⟨covers_x 14 (by decide) x 158#8 _, by simp [opcodeMap, opcodeMapLow, opcodeMapAlu, opcodeMapHigh, encode]⟩
theorem sknp (x : Nibble) : Statement (.sknp x) :=
  of_row 24 _ (by decide) ⟨covers_x 14 (by decide) x 161#8 _, by simp [opcodeMap, opcodeMapLow, opcodeMapAlu, opcodeMapHigh, encode]⟩
theorem ldVxDt (x : Nibble) : Statement (.ldVxDt x) :=
  of_row 25 _ (by decide) ⟨covers_x 15 (by decide) x 7#8 _, by simp [opcodeMap, opcodeMapLow, opcodeMapAlu, opcodeMapHigh, encode]⟩
theorem ldVxK (x : Nibble) : Statement (.ldVxK x) :=
  of_row 26 _ (by decide) ⟨covers_x 15 (by decide) x 10#8 _, by simp [opcodeMap, opcodeMapLow, opcodeMapAlu, opcodeMapHigh, encode]⟩
theorem ldDtVx (x : Nibble) : Statement (.ldDtVx x) :=
  of_row 27 _ (by decide) ⟨covers_x 15 (by decide) x 21#8 _, by simp [opcodeMap, opcodeMapLow, opcodeMapAlu, opcodeMapHigh, encode]⟩
theorem ldStVx (x : Nibble) : Statement (.ldStVx x) :=
  of_row 28 _ (by decide) ⟨covers_x 15 (by decide) x 24#8 _, by simp [opcodeMap, opcodeMapLow, opcodeMapAlu, opcodeMapHigh, encode]⟩
theorem addI (x : Nibble) : Statement (.addI x) :=
  of_row 29 _ (by decide) ⟨covers_x 15 (by decide) x 30#8 _, by simp [opcodeMap, opcodeMapLow, opcodeMapAlu, opcodeMapHigh, encode]⟩
theorem ldF (x : Nibble) : Statement (.ldF x) :=
  of_row 30 _ (by decide) ⟨covers_x 15 (by decide) x 41#8 _, by simp [opcodeMap, opcodeMapLow, opcodeMapAlu, opcodeMapHigh, encode]⟩
theorem ldB (x : Nibble) : Statement (.ldB x) :=
  of_row 31 _ (by decide) ⟨covers_x 15 (by decide) x 51#8 _, by simp [opcodeMap, opcodeMapLow, opcodeMapAlu, opcodeMapHigh, encode]⟩
theorem ldMemVx (x : Nibble) : Statement (.ldMemVx x) :=
  of_row 32 _ (by decide) ⟨covers_x 15 (by decide) x 85#8 _, by simp [opcodeMap, opcodeMapLow, opcodeMapAlu, opcodeMapHigh, encode]⟩
theorem ldVxMem (x : Nibble) : Statement (.ldVxMem x) :=
  of_row 33 _ (by decide) ⟨covers_x 15 (by decide) x 101#8 _, by simp [opcodeMap, opcodeMapLow, opcodeMapAlu, opcodeMapHigh, encode]⟩

end Sys2Proof.Laws.OpcodeMapRow
end

