-- ==== Sys2Proof/Tests/Slice0.lean ====
section
/-! SUPPORT. Small tests: the well-formedness smoke test, words written out from the spec's encodings, one step per
instruction with the expected result of 95_test_vectors.md, and a witness for every statement that has hypotheses. -/
namespace Sys2Proof.Tests
open Sys2Proof.Machine

/-! ## Helpers -/

/-- The state after one step at the given word, placed where `s` fetches. -/
def after (s : State) (w : Nat) : Option State := stateAfter (step (s.withFetchWord 16 w))

/-- The reset state with some registers set. -/
def regs (l : List (Nibble × Byte)) : State := l.foldl (fun s p => s.setV p.1 p.2) State.reset

/-- The reset state with PC, I and SP set. -/
def at' (pc i : Word) (sp : Fin 17) : State := { State.reset with pc := pc, i := i, sp := sp }

/-- A register and VF and PC of what a step left. -/
def see (x : Nibble) (t : Option State) : Option (Byte × Byte × Word) := t.map fun t => (t.getV x, t.getV vf, t.pc)

/-! ## Well-formedness: the one check, and terms it refuses -/

theorem test_image_fits : imageFits (List.replicate 3584 0#8) = true := by
  unfold imageFits; rw [List.length_replicate]; decide
theorem test_image_too_long_refused : imageFits (List.replicate 3585 0#8) = false := by
  unfold imageFits; rw [List.length_replicate]; decide

/-! ## Decoding: one word per constructor, written out bit by bit from 30_encoding.md R95 -/

theorem test_decode_cls : decodeWord 0b0000000011100000#16 = some .cls := by decide
theorem test_decode_ret : decodeWord 0b0000000011101110#16 = some .ret := by decide
theorem test_decode_jp : decodeWord 0b0001001000001000#16 = some (.jp 0x208) := by decide
theorem test_decode_call : decodeWord 0b0010001000001010#16 = some (.call 0x20A) := by decide
theorem test_decode_seImm : decodeWord 0b0011101001111111#16 = some (.seImm 0xA 0x7F) := by decide
theorem test_decode_sneImm : decodeWord 0b0100001100010001#16 = some (.sneImm 3 0x11) := by decide
theorem test_decode_seReg : decodeWord 0b0101000100100000#16 = some (.seReg 1 2) := by decide
theorem test_decode_ldImm : decodeWord 0b0110000010011100#16 = some (.ldImm 0 0x9C) := by decide
theorem test_decode_addImm : decodeWord 0b0111000011111111#16 = some (.addImm 0 0xFF) := by decide
theorem test_decode_ldReg : decodeWord 0b1000001111110000#16 = some (.ldReg 3 0xF) := by decide
theorem test_decode_or : decodeWord 0b1000000100100001#16 = some (.or 1 2) := by decide
theorem test_decode_and : decodeWord 0b1000000100100010#16 = some (.and 1 2) := by decide
theorem test_decode_xor : decodeWord 0b1000000100100011#16 = some (.xor 1 2) := by decide
theorem test_decode_addReg : decodeWord 0b1000101010110100#16 = some (.addReg 0xA 0xB) := by decide
theorem test_decode_sub : decodeWord 0b1000000100100101#16 = some (.sub 1 2) := by decide
theorem test_decode_shr : decodeWord 0b1000001111110110#16 = some (.shr 3) := by decide
theorem test_decode_subn : decodeWord 0b1000000100100111#16 = some (.subn 1 2) := by decide
theorem test_decode_shl : decodeWord 0b1000001101111110#16 = some (.shl 3) := by decide
theorem test_decode_sneReg : decodeWord 0b1001000100100000#16 = some (.sneReg 1 2) := by decide
theorem test_decode_ldI : decodeWord 0b1010001100000000#16 = some (.ldI 0x300) := by decide
theorem test_decode_jpV0 : decodeWord 0b1011001100000000#16 = some (.jpV0 0x300) := by decide
theorem test_decode_rnd : decodeWord 0b1100001100001111#16 = some (.rnd 3 0x0F) := by decide
theorem test_decode_drw : decodeWord 0b1101000000010101#16 = some (.drw 0 1 5) := by decide
theorem test_decode_skp : decodeWord 0b1110000110011110#16 = some (.skp 1) := by decide
theorem test_decode_sknp : decodeWord 0b1110000110100001#16 = some (.sknp 1) := by decide
theorem test_decode_ldVxDt : decodeWord 0b1111001000000111#16 = some (.ldVxDt 2) := by decide
theorem test_decode_ldVxK : decodeWord 0b1111001000001010#16 = some (.ldVxK 2) := by decide
theorem test_decode_ldDtVx : decodeWord 0b1111000100010101#16 = some (.ldDtVx 1) := by decide
theorem test_decode_ldStVx : decodeWord 0b1111000100011000#16 = some (.ldStVx 1) := by decide
theorem test_decode_addI : decodeWord 0b1111001000011110#16 = some (.addI 2) := by decide
theorem test_decode_ldF : decodeWord 0b1111001000101001#16 = some (.ldF 2) := by decide
theorem test_decode_ldB : decodeWord 0b1111000000110011#16 = some (.ldB 0) := by decide
theorem test_decode_ldMemVx : decodeWord 0b1111001001010101#16 = some (.ldMemVx 2) := by decide
theorem test_decode_ldVxMem : decodeWord 0b1111001001100101#16 = some (.ldVxMem 2) := by decide
theorem test_decode_unknown_alu : decodeWord 0x8AB8#16 = none := by decide
theorem test_decode_truncated : decodeBytes [0x12] = .error .truncated := by decide
theorem test_decode_rejects_by_name : decodeBytes [0xFF, 0x75] = .error (.unknownOpcode 0xFF75) := by decide
theorem test_decodeTableWord : decodeTableWord 16 0x1208 = some (.jp 0x208) := by decide

/-! ## One step each; expected results from 95_test_vectors.md, the table and row named in each comment -/

-- 2.2 row 1
theorem test_cls : (after (State.reset.setFb (toggleCell clearFrame 31 63)) 0x00E0).map
    (fun t => (cellAt t.fb 31 63, t.pc)) = some (false, 0x202) := by decide
-- 2.2 rows 4 and 3
theorem test_ret_full : (after { at' 0x300 0 16 with stk := State.reset.stk.set 15 0x400 } 0x00EE).map
    (fun t => (t.pc, t.sp, t.signal)) = some (0x400, 15, .none) := by decide
theorem test_ret_empty : (after State.reset 0x00EE).map (fun t => (t.pc, t.sp, t.signal))
    = some (0x202, 0, .stackUnderflow 0x200 0x00EE) := by decide
-- 2.2 row 6
theorem test_jp : (after State.reset 0x1FFF).map (·.pc) = some 0xFFF := by decide
-- 2.2 rows 8 and 9
theorem test_call_sixteenth : (after (at' 0x2FE 0 15) 0x2300).map (fun t => (t.pc, t.sp, t.stk[15]))
    = some (0x300, 16, 0x300) := by decide
theorem test_call_overflow : (after (at' 0x200 0 16) 0x2300).map (fun t => (t.pc, t.sp, t.signal, t.faulted))
    = some (0x202, 16, .stackOverflow 0x200 0x2300, true) := by decide
-- 2.2 row 11
theorem test_jpV0 : (after (regs [(0, 0xFF)]) 0xBFFF).map (·.pc) = some 0x10FE := by decide
-- 2.3 rows 12 and 2
theorem test_seImm_top : (after (at' 0xFFE 0 0) 0x3000).map (·.pc) = some 0x1002 := by decide
theorem test_seImm_not_taken : (after (regs [(0, 1)]) 0x3000).map (·.pc) = some 0x202 := by decide
-- 2.3 rows 3 and 4
theorem test_sneImm_taken : (after (regs [(3, 0x10)]) 0x4311).map (·.pc) = some 0x204 := by decide
theorem test_sneImm_not_taken : (after (regs [(3, 0x10)]) 0x4310).map (·.pc) = some 0x202 := by decide
-- 2.3 rows 5 and 6
theorem test_seReg_taken : (after (regs [(1, 0x7F), (2, 0x7F)]) 0x5120).map (·.pc) = some 0x204 := by decide
theorem test_seReg_not_taken : (after (regs [(1, 0x7F), (2, 0x7E)]) 0x5120).map (·.pc) = some 0x202 := by decide
-- 2.3 rows 8 and 9
theorem test_sneReg_taken : (after (regs [(2, 1)]) 0x9120).map (·.pc) = some 0x204 := by decide
theorem test_sneReg_not_taken : (after State.reset 0x9120).map (·.pc) = some 0x202 := by decide
-- 2.4 row 34
theorem test_ldImm_vf : see 0xF (after (regs [(0xF, 1)]) 0x6F07) = some (7, 7, 0x202) := by decide
-- 2.4 rows 32 and 35
theorem test_addImm_wraps : see 0 (after (regs [(0, 1)]) 0x70FF) = some (0, 0, 0x202) := by decide
theorem test_addImm_vf : see 0xF (after (regs [(0xF, 0xFF)]) 0x7F02) = some (1, 1, 0x202) := by decide
-- 2.4 row 17
theorem test_ldReg : see 1 (after (regs [(1, 0x12), (2, 0x34), (0xF, 0xAA)]) 0x8120) = some (0x34, 0xAA, 0x202) := by
  decide
-- 2.4 rows 14 to 16
theorem test_or : see 1 (after (regs [(1, 0xF0), (2, 0x0F), (0xF, 0xAA)]) 0x8121) = some (0xFF, 0xAA, 0x202) := by
  decide
theorem test_and : see 1 (after (regs [(1, 0xF0), (2, 0x3C), (0xF, 0xAA)]) 0x8122) = some (0x30, 0xAA, 0x202) := by
  decide
theorem test_xor : see 1 (after (regs [(1, 0xFF), (2, 0x0F), (0xF, 0xAA)]) 0x8123) = some (0xF0, 0xAA, 0x202) := by
  decide
-- 2.4 rows 4 and 49
theorem test_addReg_256 : see 1 (after (regs [(1, 0xFF), (2, 1)]) 0x8124) = some (0, 1, 0x202) := by decide
theorem test_addReg_vf_source : see 1 (after (regs [(1, 0x10), (0xF, 1)]) 0x81F4) = some (0x11, 0, 0x202) := by decide
-- 2.4 rows 7 and 42
theorem test_sub_borrow : see 1 (after (regs [(1, 3), (2, 5)]) 0x8125) = some (0xFE, 0, 0x202) := by decide
theorem test_sub_vf : see 0xF (after (regs [(0xF, 5), (2, 3)]) 0x8F25) = some (1, 1, 0x202) := by decide
-- 2.4 rows 21 and 18
theorem test_shr_logical : see 3 (after (regs [(3, 0xFF), (7, 0x55)]) 0x8376) = some (0x7F, 1, 0x202) := by decide
theorem test_shr_y_ignored : see 7 (after (regs [(3, 5), (7, 0x55)]) 0x8376) = some (0x55, 1, 0x202) := by decide
-- 2.4 rows 12 and 13
theorem test_subn : see 1 (after (regs [(1, 3), (2, 5)]) 0x8127) = some (2, 1, 0x202) := by decide
theorem test_subn_equal : see 1 (after (regs [(1, 7), (2, 7)]) 0x8127) = some (0, 1, 0x202) := by decide
-- 2.4 rows 23 and 48
theorem test_shl : see 3 (after (regs [(3, 0x81), (7, 0x55)]) 0x837E) = some (2, 1, 0x202) := by decide
theorem test_shl_vf : see 0xF (after (regs [(0xF, 1)]) 0x8F0E) = some (0, 0, 0x202) := by decide
-- 2.5 row 2
theorem test_ldI : (after State.reset 0xAFFF).map (·.i) = some 0xFFF := by decide
-- 2.5 rows 6 and 4
theorem test_addI_wraps : (after { regs [(2, 0xFF), (0xF, 7)] with i := 0xFFF0 } 0xF21E).map (fun t => (t.i, t.getV vf))
    = some (0xEF, 7) := by decide
theorem test_addI_past_memory : (after { regs [(2, 1)] with i := 0xFFF } 0xF21E).map (·.i) = some 0x1000 := by decide
-- 2.5 rows 10 and 8
theorem test_ldF_low_nibble : (after (regs [(2, 0x1A)]) 0xF229).map (·.i) = some 0x32 := by decide
theorem test_ldF_last : (after (regs [(2, 0x0F)]) 0xF229).map (·.i) = some 0x4B := by decide
-- 2.5 rows 18 and 21
theorem test_ldB_top : (after { regs [(0, 0xFF)] with i := 0xFFD } 0xF033).map
    (fun t => [t.byteAt 0xFFD, t.byteAt 0xFFE, t.byteAt 0xFFF]) = some [2, 5, 5] := by decide
theorem test_ldB_no_wrap : (after { regs [(0, 0xFF)] with i := 0xFFFF } 0xF033).map (fun t => (t.signal, t.pc))
    = some (.outOfBounds 0x200 (some 0xF033) 0xFFFF, 0x202) := by decide
-- 2.5 rows 22 and 24
theorem test_ldMemVx : (after { regs [(0, 0x11), (1, 0x22), (2, 0x33)] with i := 0x400 } 0xF255).map
    (fun t => ([t.byteAt 0x400, t.byteAt 0x401, t.byteAt 0x402, t.byteAt 0x403], t.i))
    = some ([0x11, 0x22, 0x33, 0], 0x400) := by decide
theorem test_ldMemVx_all_or_nothing : (after { regs [(0, 0x11), (1, 0x22)] with i := 0xFFF } 0xF155).map
    (fun t => (t.byteAt 0xFFF, t.signal)) = some (0, .outOfBounds 0x200 (some 0xF155) 0x1000) := by decide
-- 2.5 rows 27 and 28; the loaded bytes are the font's first glyph (R25)
theorem test_ldVxMem : (after (regs [(3, 0x44)]) 0xF265).map (fun t => [t.getV 0, t.getV 1, t.getV 2, t.getV 3])
    = some [0xF0, 0x90, 0x90, 0x44] := by decide
theorem test_ldVxMem_out : (after { regs [(0, 3), (1, 4)] with i := 0xFFF } 0xF165).map
    (fun t => (t.getV 0, t.getV 1, t.signal)) = some (3, 4, .outOfBounds 0x200 (some 0xF165) 0x1000) := by decide
-- 2.6 rows 1 to 3
theorem test_ldVxDt : (after (State.reset.setDt 5) 0xF207).map (fun t => (t.getV 2, t.dt)) = some (5, 5) := by decide
theorem test_ldDtVx : (after (regs [(1, 7)]) 0xF115).map (fun t => (t.dt, t.st)) = some (7, 0) := by decide
theorem test_ldStVx : (after (regs [(1, 0x1E)]) 0xF118).map (fun t => (t.dt, t.st)) = some (0, 0x1E) := by decide
-- 2.7 rows 5 and 2
theorem test_skp_low_nibble : (after ((regs [(1, 0x17)]).pressKey 7) 0xE19E).map (·.pc) = some 0x204 := by decide
theorem test_skp_up : (after (regs [(1, 7)]) 0xE19E).map (·.pc) = some 0x202 := by decide
-- 2.7 rows 6 and 3
theorem test_sknp_down : (after ((regs [(1, 0xF0)]).pressKey 0) 0xE1A1).map (·.pc) = some 0x202 := by decide
theorem test_sknp_up : (after (regs [(1, 7)]) 0xE1A1).map (·.pc) = some 0x204 := by decide
-- 2.7 rows 9 and 7
theorem test_ldVxK_least : (after ((State.reset.pressKey 9).pressKey 7) 0xF10A).map (fun t => (t.getV 1, t.pc))
    = some (7, 0x202) := by decide
theorem test_ldVxK_waits : (after State.reset 0xF10A).map (fun t => (t.getV 1, t.pc, t.signal))
    = some (0, 0x200, .none) := by decide
-- 2.8: the byte is the host's (48_random.md R211, its examples), and R210: each RND receives the byte given
theorem test_rnd_given : (stateAfter (stepWith 0xA7 (State.reset.withFetchWord 16 0xC30F))).map
    (fun t => (t.getV 3, t.pc, t.random.pending)) = some (0x07, 0x202, []) := by decide
theorem test_rnd_zero_mask : ∃ t, exec (.rnd 3 0x00) (regs [(3, 0x55)]) = .next t ∧ t.getV 3 = 0 :=
  ⟨_, rfl, by show (regs [(3, 0x55)]).rndByte &&& 0#8 = 0#8; exact BitVec.and_zero⟩
-- 2.9 row 7 and, on the font byte F0 at address 0, the wrap of row 1
theorem test_drw_empty : (after { regs [(0xF, 1)] with i := 0xFFFF } 0xD010).map (fun t => (t.getV vf, t.signal))
    = some (0, .none) := by decide
theorem test_drw_wraps : (after (regs [(0, 62)]) 0xD011).map
    (fun t => ((List.range 64).filter (cellAt t.fb 0), t.getV vf)) = some ([0, 1, 62, 63], 0) := by decide
-- 2.1 rows 3, 4, 6 and 9
theorem test_fetch_4096 : (stateAfter (step (at' 0x1000 0 0))).map (fun t => (t.pc, t.signal))
    = some (0x1000, .outOfBounds 0x1000 none 0x1000) := by decide
theorem test_fetch_4095 : (stateAfter (step (at' 0xFFF 0 0))).map (fun t => (t.pc, t.signal))
    = some (0xFFF, .outOfBounds 0xFFF none 0x1000) := by decide
theorem test_odd_pc : (after (at' 0x201 0 0) 0x6005).map (fun t => (t.getV 0, t.pc)) = some (5, 0x203) := by decide
theorem test_unknown : (after State.reset 0x5121).map (fun t => (t.pc, t.signal))
    = some (0x202, .unknownOpcode 0x200 0x5121) := by decide
-- 2.6 rows 6 and 8
theorem test_tick : (fun t : State => (t.dt, t.st)) ((State.reset.setDt 2).setSt 1).tickTimers = (1, 0) := by decide
theorem test_tick_floor : State.reset.tickTimers = State.reset := by decide
-- 49_host_operations.md R232 and 2.2 row 5: a run ends at the self-jump, in the steps before it and no later
theorem test_runUntil : (Session.powerOn.runUntil State.atSelfJump
    [.load [0x60, 0x05, 0x12, 0x02], .step 0, .keyDown 7]).map
    (fun h => (h.state.pc, h.state.getV 0, h.state.keyDown? 7, h.endedWell State.atSelfJump))
    = some (0x202, 5, false, true) := by decide
theorem test_selfJump_needs_own_address : (State.reset.withFetchWord 16 0x1202).atSelfJump = false := by decide
-- 2.10 row 6
theorem test_load : (State.reset.loadImage [0x12, 0x00]).map (fun t => (t.byteAt 0x200, t.byteAt 0x201, t.mem))
    = some (0x12, 0, [(0x200, 0x12)]) := by decide

/-! ## Witnesses: for each statement with hypotheses, states and operands that meet them, at the ends of each range.
A statement without hypotheses (or whose hypotheses are only ranges of its operands) is named nowhere here. -/

/-- The state a step leaves, for a step that is known to answer one. -/
def left (o : Host.Outcome State Fault Refusal) : State := (stateAfter o).getD State.reset

/-- A state with two words of program at the top of memory: PC is the last address a word can be fetched from. -/
def top (w : Nat) : State := (at' 0xFFE 0 0).withFetchWord 16 w

theorem witness_StepRunsDecodedInstruction : (top 0x1208).pc.toNat + 1 ≤ 4095 ∧
    decodeBytes [(top 0x1208).byteAt 0xFFE, (top 0x1208).byteAt 0xFFF] = .ok (.jp 0x208, []) := by decide
theorem witness_FetchIsBigEndian : (at' 0xFFE 0 0).pc.toNat + 1 ≤ 4095 ∧ imageFits [0x12, 0x08] = true := by decide
theorem witness_FetchIsBigEndian_full : imageFits (0x12 :: 0x08 :: List.replicate 3582 0#8) = true := by
  unfold imageFits; rw [List.length_cons, List.length_cons, List.length_replicate]; decide
theorem witness_UnknownWordOnlyAdvancesAndSignals : (top 0xFF75).pc.toNat + 1 ≤ 4095 ∧
    (0xFF75 : Word) = wordOfBytes ((top 0xFF75).byteAt (top 0xFF75).pc.toNat) ((top 0xFF75).byteAt ((top 0xFF75).pc.toNat + 1)) ∧
    decodeWord 0xFF75#16 = none := by decide
theorem witness_FetchOutOfBoundsChangesNothing :
    4095 ≤ (at' 0xFFF 0 0).pc.toNat ∧ 4095 ≤ (at' 0x1000 0 0).pc.toNat ∧ 4095 ≤ (at' 0xFFFF 0 0).pc.toNat := by decide
theorem witness_SignalledStep_execute :
    step (top 0x00EE) = .next (left (step (top 0x00EE))) ∧ (left (step (top 0x00EE))).signal ≠ .none :=
  ⟨rfl, by decide⟩
theorem witness_SignalledStep_fetch :
    step (at' 0xFFF 0 0) = .next (left (step (at' 0xFFF 0 0))) ∧ (left (step (at' 0xFFF 0 0))).signal ≠ .none :=
  ⟨rfl, by decide⟩
theorem witness_SignalsAreExactlyTheTable_signal :
    exec .ret State.reset = .next (left (exec .ret State.reset)) ∧ (left (exec .ret State.reset)).signal ≠ .none :=
  ⟨rfl, by decide⟩
theorem witness_SignalsAreExactlyTheTable_none :
    exec .cls State.reset = .next (left (exec .cls State.reset)) ∧ (left (exec .cls State.reset)).signal = .none :=
  ⟨rfl, by decide⟩
theorem witness_SignalCarriesFetchedWord :
    (top 0xFF75).fetch = some 0xFF75 ∧ step (top 0xFF75) = .next (left (step (top 0xFF75))) := ⟨by decide, rfl⟩
theorem witness_StepKeepsInvariant : StateInv { regs [(0, 0xFF)] with pc := 0x10FE } ∧ StateInv (top 0x00E0) ∧
    step (top 0x00E0) = .next (left (step (top 0x00E0))) := ⟨by unfold StateInv; decide, by unfold StateInv; decide, rfl⟩
theorem witness_HostOperationsKeepInvariant : StateInv Session.powerOn.state ∧
    (Session.powerOn.apply (.load [0x12, 0x00])).isSome = true ∧ (Session.powerOn.apply (.step 0xA7)).isSome = true ∧
    (Session.powerOn.apply .reset).isSome = true ∧ (Session.powerOn.apply .tick).isSome = true ∧
    (Session.powerOn.apply (.keyDown 0xF)).isSome = true ∧ (Session.powerOn.apply (.keyUp 0)).isSome = true := by
  unfold StateInv; decide
theorem witness_ReachableStatesMeetInvariant :
    (Session.powerOn.run [.load [0x12, 0x00], .step 0, .keyDown 7, .tick, .step 0xFF]).isSome = true := by decide
theorem witness_EvenTargetsKeepPcEven : EvenPc (top 0x1208) ∧ (top 0x1208).fetch = some 0x1208 ∧
    decodeWord 0x1208#16 = some (.jp 0x208) ∧ transferEven (.jp 0x208) (top 0x1208) = true ∧
    step (top 0x1208) = .next (left (step (top 0x1208))) := ⟨by unfold EvenPc; decide, by decide, by decide, by decide, rfl⟩
theorem witness_MemoryIsOneByteStore : Memory.wf [] = true ∧ Memory.wf [(0, 1), (0x200, 2), (4095, 3)] = true ∧
    (0 : Nat) < 4096 ∧ (4095 : Nat) < 4096 := by decide
theorem witness_OnlyTheNamedInstructionsWrite :
    exec (.jp 0x300) State.reset = .next (left (exec (.jp 0x300) State.reset)) ∧ ¬ mayWrite (.jp 0x300) 0xF ∧
    (∀ x, Instr.jp 0x300 ≠ .ldB x) ∧ (∀ x, Instr.jp 0x300 ≠ .ldMemVx x) ∧ (∀ n, Instr.jp 0x300 ≠ .call n) ∧
    Instr.jp 0x300 ≠ .ret ∧ (∀ n, Instr.jp 0x300 ≠ .ldI n) ∧ (∀ x, Instr.jp 0x300 ≠ .addI x) ∧
    (∀ x, Instr.jp 0x300 ≠ .ldF x) ∧ (∀ x, Instr.jp 0x300 ≠ .ldDtVx x) ∧ (∀ x, Instr.jp 0x300 ≠ .ldStVx x) ∧
    Instr.jp 0x300 ≠ .cls ∧ (∀ x y n, Instr.jp 0x300 ≠ .drw x y n) ∧ (∀ x nn, Instr.jp 0x300 ≠ .rnd x nn) :=
  ⟨rfl, by simp [mayWrite, destination, flagWriter], nofun, nofun, nofun, nofun, nofun, nofun, nofun, nofun, nofun, nofun, nofun, nofun⟩
/-- VF changes: by a flag writer, and by LD VF, nn. -/
theorem witness_OnlyTheNamedInstructionsWrite_vf :
    (left (exec (.sub 1 2) State.reset)).getV 0xF ≠ State.reset.getV 0xF ∧
    (left (exec (.ldImm 0xF 7) State.reset)).getV 0xF ≠ State.reset.getV 0xF := by decide
theorem witness_OnlyRndUsesTheRandomSource : (∀ x nn, Instr.cls ≠ .rnd x nn) ∧
    (∀ w x nn, (top 0x00E0).fetch = some w → decodeWord w ≠ some (.rnd x nn)) :=
  ⟨nofun, fun w x nn h => by
    have e : (top 0x00E0).fetch = some 0x00E0 := by decide
    rw [e] at h; cases h; exact nofun⟩
/-- The same hypothesis at a failed fetch and at an unknown word. -/
theorem witness_OnlyRndUsesTheRandomSource_none :
    (∀ w x nn, (at' 0xFFF 0 0).fetch = some w → decodeWord w ≠ some (.rnd x nn)) ∧
    (∀ w x nn, (top 0xFF75).fetch = some w → decodeWord w ≠ some (.rnd x nn)) :=
  ⟨fun w x nn h => (by
    have e : (at' 0xFFF 0 0).fetch = none := by decide
    rw [e] at h; cases h),
   fun w x nn h => by
    have e : (top 0xFF75).fetch = some 0xFF75 := by decide
    rw [e] at h; cases h; exact nofun⟩
theorem witness_JumpsSetPc : (State.reset.withFetchWord 16 0x1200).atSelfJump = true := by decide
theorem witness_DecodeOfEncode : (Instr.drw 0xF 0 0xF).wellFormed = true := by decide
theorem witness_EncodeOfDecode : decodeWord 0xD015#16 = some (.drw 0 1 5) ∧ decodeWord 0x83F6#16 = some (.shr 3) := by
  decide
theorem witness_RetPopsTheReturnAddress : (at' 0x200 0 1).sp.val = 0 + 1 ∧ (at' 0x200 0 16).sp.val = 15 + 1 := by decide
theorem witness_CallPushesAndJumps : (at' 0x200 0 0).sp.val = 0 ∧ (at' 0x200 0 15).sp.val = 15 := by decide
theorem witness_StackEndsOnlySignal : (at' 0x200 0 0).sp.val = 0 ∧ (at' 0x200 0 16).sp.val = 16 := by decide
/-- The state after the sixteenth CALL, and after a fifteenth CALL and a nested CALL and RET, which leave slot 15 changed. -/
theorem witness_CallThenRetComesBack : (at' 0x200 0 15).sp.val = 15 ∧
    exec (.call 0x300) (at' 0x200 0 15) = .next (left (exec (.call 0x300) (at' 0x200 0 15))) :=
  ⟨by decide, rfl⟩
theorem witness_CallThenRetComesBack_nested :
    let t := left (exec (.call 0x300) (at' 0x200 0 14))
    let u := left (exec .ret (left (exec (.call 0x400) t)))
    exec (.call 0x300) (at' 0x200 0 14) = .next t ∧ u.sp = t.sp ∧ u.stk[14] = t.stk[14] ∧ u.stk[15] ≠ t.stk[15] :=
  ⟨rfl, by decide, by decide, by decide⟩
theorem witness_SkipsAdvanceByFourOrTwo : 0x3A7F#16 &&& 0xF000#16 = 0x3000#16 ∧ 0x4311#16 &&& 0xF000#16 = 0x4000#16 ∧
    0x5120#16 &&& 0xF00F#16 = 0x5000#16 ∧ 0x9120#16 &&& 0xF00F#16 = 0x9000#16 ∧
    (0x5121#16 &&& 0xF000#16 = 0x5000#16 ∧ nField 0x5121#16 ≠ 0#4) ∧
    (0x912F#16 &&& 0xF000#16 = 0x9000#16 ∧ nField 0x912F#16 ≠ 0#4) := by decide
theorem witness_AddImmWrapsWithoutFlag : 0x70FF#16 &&& 0xF000#16 = 0x7000#16 := by decide
theorem witness_LdRegCopies : 0x8120#16 &&& 0xF00F#16 = 0x8000#16 := by decide
theorem witness_x_not_15 : (0 : Nibble) ≠ 0xF#4 ∧ (0xE : Nibble) ≠ 0xF#4 := by decide -- AddReg, Subtracts, Shifts
theorem witness_FlagWritersLeaveZeroOrOne :
    exec (.drw 0 0 0xF) State.reset = .next (left (exec (.drw 0 0 0xF) State.reset)) ∧
    (left (exec (.drw 0 0 0xF) State.reset)).signal = .none ∧
    exec (.addReg 0xF 0) State.reset = .next (left (exec (.addReg 0xF 0) State.reset)) ∧
    (left (exec (.addReg 0xF 0) State.reset)).signal = .none := ⟨rfl, by decide, rfl, by decide⟩
theorem witness_LdILoadsAddress : 0xAFFF#16 &&& 0xF000#16 = 0xA000#16 := by decide
theorem witness_LdBStoresDecimalDigits :
    Memory.wf (at' 0x200 0xFFD 0).mem = true ∧ (at' 0x200 0xFFD 0).i.toNat + 2 ≤ 4095 := by decide
theorem witness_BlockTransfers : Memory.wf (at' 0x200 0xFF0 0).mem = true ∧
    (at' 0x200 0xFF0 0).i.toNat + (0xF : Nibble).toNat ≤ 4095 ∧ (0xF : Nibble).toNat ≤ (0xF : Nibble).toNat ∧
    (0 : Nibble).toNat < (0xF : Nibble).toNat := by decide -- BlockStoreStoresRegisters, BlockLoadLoadsRegisters
theorem witness_BlockStoreThenLoadRestores :
    exec (.ldMemVx 1) (at' 0x200 0xFFE 0) = .next (left (exec (.ldMemVx 1) (at' 0x200 0xFFE 0))) ∧
    (at' 0x200 0xFFE 0).i.toNat + (1 : Nibble).toNat ≤ 4095 ∧ Memory.wf (at' 0x200 0xFFE 0).mem = true ∧
    (left (exec (.ldMemVx 1) (at' 0x200 0xFFE 0))).i = (at' 0x200 0xFFE 0).i ∧
    exec (.ldVxMem 1) (left (exec (.ldMemVx 1) (at' 0x200 0xFFE 0)))
      = .next (left (exec (.ldVxMem 1) (left (exec (.ldMemVx 1) (at' 0x200 0xFFE 0))))) :=
  ⟨rfl, by decide, by decide, by decide, rfl⟩
theorem witness_TransfersOutOfRangeOnlySignal : 4096 ≤ (at' 0x200 0xFFE 0).i.toNat + 2 ∧
    4096 ≤ (at' 0x200 0x1000 0).i.toNat + (0 : Nibble).toNat ∧
    4096 ≤ (at' 0x200 0xFFF 0).i.toNat + (1 : Nibble).toNat ∧
    (1 ≤ (1 : Nibble).toNat ∧ 4096 ≤ (at' 0x200 0x1000 0).i.toNat + (1 : Nibble).toNat - 1) ∧
    (1 ≤ (0xF : Nibble).toNat ∧ 4096 ≤ (at' 0x200 0xFF2 0).i.toNat + (0xF : Nibble).toNat - 1) := by decide
theorem witness_LdDtSetsDelayTimer : 0xFF15#16 &&& 0xF0FF#16 = 0xF015#16 := by decide
theorem witness_KeySkips : (0xF : Nibble).toNat = ((regs [(1, 0xFF)]).getV 1).toNat % 16 ∧
    (0 : Nibble).toNat = ((regs [(1, 0x10)]).getV 1).toNat % 16 := by decide
theorem witness_WaitForKeyTakesLeastKey : (State.reset.pressKey 0xF).keyDown? 0xF = true ∧
    (∀ j : Nibble, j.toNat < (0xF : Nibble).toNat → (State.reset.pressKey 0xF).keyDown? j = false) ∧
    (State.reset.pressKey 0).keyDown? 0 = true ∧
    (∀ j : Nibble, j.toNat < (0 : Nibble).toNat → (State.reset.pressKey 0).keyDown? j = false) := by decide
theorem witness_WaitForKeyStaysPut : (top 0xFF0A).fetch = some (encode (.ldVxK 0xF)) ∧
    (∀ k, (top 0xFF0A).keyDown? k = false) := by decide
theorem witness_KeyEventsChangeOneKey : (∀ k, State.reset.keyDown? k = false) ∧
    (State.reset.pressKey 3).keyDown? 3 = true ∧ State.reset.keyDown? 3 = false ∧ (2 : Nibble) ≠ 3 := by decide
theorem witness_RndMasksTheRandomByte_given : (top 0xCF0F).fetch = some (encode (.rnd 0xF 0x0F)) ∧
    (State.reset.giveByte 0xA7).random.pending = 0xA7 :: [] := by decide
theorem witness_RndMasksTheRandomByte : (0x0F : Byte).getLsbD 7 = false ∧ (0 : Byte).getLsbD 0 = false := by decide
theorem witness_Blit : (List.replicate 15 0xFF#8).length ≤ 15 ∧ ([] : List Byte).length ≤ 15 ∧
    SpriteCovers 63 31 [0x80] 31 63 :=
  ⟨by decide, by decide, 0, 0, by decide, by decide, by decide, by decide, by decide⟩ -- the four statements of a blit
theorem witness_DrwBlitsTheSpriteAtI : (0 : Nibble).toNat = 0 ∧
    (at' 0x200 0xFF1 0).i.toNat + (0xF : Nibble).toNat - 1 ≤ 4095 ∧
    (at' 0x200 0xFFF 0).i.toNat + (1 : Nibble).toNat - 1 ≤ 4095 := by decide
theorem witness_LoadPlacesTheImage : Memory.wf State.reset.mem = true ∧ imageFits ([] : List Byte) = true ∧
    (Session.mk State.reset false).fresh = false ∧
    Session.powerOn.fresh = true ∧ imageFits ([0x12, 0x00] : List Byte) = true ∧
    Session.powerOn.fresh ≠ (Session.mk State.reset false).fresh := by decide -- test_image_fits, test_image_too_long_refused

end Sys2Proof.Tests
end

section
/-! PROOFS. The family of 20_memory.md: a canonical memory is determined by its reads, and a loaded image reads back at
its place. -/
namespace Sys2Proof.Machine

/-! ### Canonical memories -/

theorem Memory.wfFrom_cons_iff {lo k : Nat} {b : Byte} {m : Memory} :
    Memory.wfFrom lo ((k, b) :: m) = true ↔
      lo ≤ k ∧ k < Config.memSize ∧ b ≠ initialByte k ∧ Memory.wfFrom (k + 1) m = true := by
  simp [Memory.wfFrom, and_assoc]

/-- The first listed address of a canonical memory tells it apart from every memory listed only above it. -/
theorem Memory.read_head_ne {lo k : Nat} {b : Byte} {m m' : Memory} (h : Memory.wfFrom lo ((k, b) :: m) = true)
    (h' : Memory.wfFrom (k + 1) m' = true) : Memory.read ((k, b) :: m) k ≠ Memory.read m' k := by
  obtain ⟨-, -, hb, -⟩ := Memory.wfFrom_cons_iff.1 h
  rw [Memory.read, if_pos rfl, Memory.read_of_lt h' (Nat.lt_succ_self k)]
  exact hb

/-- Behind a common first cell, canonical memories that read alike go on reading alike: up to that cell both tails read
as after reset. -/
theorem Memory.read_tail_eq {k : Nat} {b b' : Byte} {m m' : Memory} (hm : Memory.wfFrom (k + 1) m = true)
    (hm' : Memory.wfFrom (k + 1) m' = true)
    (hr : ∀ a, Memory.read ((k, b) :: m) a = Memory.read ((k, b') :: m') a) (a : Nat) :
    Memory.read m a = Memory.read m' a := by
  by_cases ha : a < k + 1
  · rw [Memory.read_of_lt hm ha, Memory.read_of_lt hm' ha]
  · have hk : k ≠ a := by omega
    simpa [Memory.read, hk] using hr a

theorem Memory.eq_of_read_eq_from {lo : Nat} {m m' : Memory} (h : Memory.wfFrom lo m = true)
    (h' : Memory.wfFrom lo m' = true) (hr : ∀ a, Memory.read m a = Memory.read m' a) : m = m' := by
  induction m generalizing lo m' with
  | nil =>
    cases m' with
    | nil => rfl
    | cons c m' => exact absurd (hr c.1).symm (Memory.read_head_ne h' rfl)
  | cons c m ih =>
    cases m' with
    | nil => exact absurd (hr c.1) (Memory.read_head_ne h rfl)
    | cons c' m' =>
      obtain ⟨k, b⟩ := c
      obtain ⟨k', b'⟩ := c'
      obtain ⟨-, hk, hb, hm⟩ := Memory.wfFrom_cons_iff.1 h
      obtain ⟨-, hk', hb', hm'⟩ := Memory.wfFrom_cons_iff.1 h'
      rcases Nat.lt_trichotomy k k' with hlt | rfl | hgt
      · exact absurd (hr k) (Memory.read_head_ne h (Memory.wfFrom_cons_iff.2 ⟨hlt, hk', hb', hm'⟩))
      · have hbb : b = b' := by simpa [Memory.read] using hr k
        rw [hbb, ih hm hm' (Memory.read_tail_eq hm hm' hr)]
      · exact absurd (hr k').symm (Memory.read_head_ne h' (Memory.wfFrom_cons_iff.2 ⟨hgt, hk, hb, hm⟩))

/-- Canonical memories that read alike at every address are equal (log 32). -/
theorem Memory.eq_of_read_eq {m m' : Memory} (h : Memory.wf m = true) (h' : Memory.wf m' = true)
    (hr : ∀ a, Memory.read m a = Memory.read m' a) : m = m' := Memory.eq_of_read_eq_from h h' hr

/-- Settles O15: the two cases of a read after a write, and an induction over both memories at once, whose first cells
must agree. -/
theorem memoryIsOneByteStore : Obligations.MemoryIsOneByteStore := by
  unfold Obligations.MemoryIsOneByteStore
  refine ⟨fun m a a' b h ha => ⟨Memory.wf_write b ha h, ?_⟩, fun m m' => Memory.eq_of_read_eq⟩
  split
  · next e => rw [e, Memory.read_write_self b h]
  · next e => exact Memory.read_write_ne b e

/-! ### Loading an image -/

/-- A fitting image is loaded, and changes memory alone (49_host_operations.md R226). -/
theorem State.loadImage_of_fits (s : State) {image : List Byte} (h : imageFits image = true) :
    s.loadImage image = some { s with mem := Memory.writeList s.mem Config.progBase image } := by
  have hlen : Config.progBase + image.length ≤ 4096 := by simpa [imageFits] using h
  exact s.store_of_inRange ((inRange_iff _ _).2 (.inr hlen))

/-- In a canonical memory a loaded image reads back byte for byte from 0x200 on. -/
theorem State.byteAt_of_loadImage {s t : State} {image : List Byte} {k : Nat} (hw : Memory.wf s.mem = true)
    (hf : imageFits image = true) (ht : s.loadImage image = some t) (hk : k < image.length) :
    t.byteAt (0x200 + k) = image[k] := by
  rw [s.loadImage_of_fits hf, Option.some.injEq] at ht
  subst ht
  exact Memory.read_writeList_inside hw (by simpa [imageFits] using hf) hk

theorem State.pc_of_loadImage {s t : State} {image : List Byte} (hf : imageFits image = true)
    (ht : s.loadImage image = some t) : t.pc = s.pc := by
  rw [s.loadImage_of_fits hf, Option.some.injEq] at ht
  rw [← ht]

/-- A fetch in range, told by the two bytes of its word (20_memory.md R60). -/
theorem State.exists_fetch_bytes (s : State) (h : s.pc.toNat + 1 ≤ 4095) : ∃ w, s.fetch = some w ∧
    hiByte w = s.byteAt s.pc.toNat ∧ loByte w = s.byteAt (s.pc.toNat + 1) :=
  ⟨_, s.fetch_of_le (by omega), hiByte_wordOfBytes _ _, loByte_wordOfBytes _ _⟩

/-- Settles O2: the fetched word is `wordOfBytes` of the bytes at PC and PC + 1, and after a load those are the first two
bytes of the image. -/
theorem fetchIsBigEndian : Obligations.FetchIsBigEndian := by
  unfold Obligations.FetchIsBigEndian
  refine ⟨State.exists_fetch_bytes, fun b0 b1 image hf => ?_⟩
  obtain ⟨t, ht⟩ : ∃ t, State.reset.loadImage (b0 :: b1 :: image) = some t := ⟨_, State.reset.loadImage_of_fits hf⟩
  have hpc : t.pc.toNat = 0x200 := by rw [State.pc_of_loadImage hf ht]; rfl
  have h0 : t.byteAt 0x200 = b0 := State.byteAt_of_loadImage (k := 0) rfl hf ht (by simp)
  have h1 : t.byteAt 0x201 = b1 := State.byteAt_of_loadImage (k := 1) rfl hf ht (by simp)
  obtain ⟨w, hw, hhi, hlo⟩ := t.exists_fetch_bytes (by omega)
  rw [hpc] at hhi hlo
  exact ⟨t, ht, w, hw, hhi.trans h0, hlo.trans h1⟩

end Sys2Proof.Machine
end

section
/-! PROOFS. The family of 40_step_cycle.md: the three ways a step goes (no word, an unknown word, an instruction), and
that each of them answers a next state. -/
namespace Sys2Proof.Machine

/-! ### The three ways of a step -/

theorem step_of_fetch_none {s : State} (hf : s.fetch = none) : step s = .next s.fetchFailed := by
  simp [step, hf]

theorem step_of_decode_none {s : State} {w : Word} (hf : s.fetch = some w) (hd : decodeWord w = none) :
    step s = .next (s.unknownWord w) := by
  simp [step, hf, hd]

theorem step_of_decode_some {s : State} {w : Word} {i : Instr} (hf : s.fetch = some w)
    (hd : decodeWord w = some i) : step s = exec i s := by
  simp [step, hf, hd]

/-- The byte decoder accepts exactly when the word of the first two bytes decodes, and leaves the bytes after it. -/
theorem decodeBytes_eq_ok_iff {hi lo : Byte} {rest rest' : List Byte} {i : Instr} :
    decodeBytes (hi :: lo :: rest) = .ok (i, rest') ↔ decodeWord (wordOfBytes hi lo) = some i ∧ rest = rest' := by
  cases hd : decodeWord (wordOfBytes hi lo) <;> simp [decodeBytes, hd]

/-! ### Totality -/

/-- No instruction faults or refuses. Seven of them first ask the stack, the keys or the range check, and answer a next
state whichever way that goes; the others have a single outcome. -/
theorem exec_answers (i : Instr) (s : State) : ∃ t, exec i s = .next t := by
  cases i with
  | ret | call | drw | ldVxK | ldB | ldMemVx | ldVxMem =>
    simp only [exec, execRet, execCall, execDrw, execLdVxK, execLdB, execLdMemVx, execLdVxMem]
    split <;> exact ⟨_, rfl⟩
  | _ => exact ⟨_, rfl⟩

/-- Settles O5: a failed fetch and an unknown word answer their signal as a next state, and so does every
instruction. -/
theorem stepAnswersInEveryState : Obligations.StepAnswersInEveryState := by
  unfold Obligations.StepAnswersInEveryState
  intro s
  cases hf : s.fetch with
  | none => exact ⟨_, step_of_fetch_none hf⟩
  | some w =>
    cases hd : decodeWord w with
    | none => exact ⟨_, step_of_decode_none hf hd⟩
    | some i =>
      rw [step_of_decode_some hf hd]
      exact exec_answers i s

/-! ### What a step does with the fetched word -/

/-- Settles O1: the fetched word is the one the byte decoder reads from the two bytes at PC. -/
theorem stepRunsDecodedInstruction : Obligations.StepRunsDecodedInstruction := by
  unfold Obligations.StepRunsDecodedInstruction
  intro s i hpc hbytes
  obtain ⟨hd, -⟩ := decodeBytes_eq_ok_iff.1 hbytes
  exact step_of_decode_some (s.fetch_of_le (by omega)) hd

/-- Settles O3: the step is `unknownWord` of the fetched word, which advances PC and raises the signal. -/
theorem unknownWordOnlyAdvancesAndSignals : Obligations.UnknownWordOnlyAdvancesAndSignals := by
  unfold Obligations.UnknownWordOnlyAdvancesAndSignals
  refine ⟨?_, by decide⟩
  rintro s hpc w rfl hd
  exact step_of_decode_none (s.fetch_of_le (by omega)) hd

end Sys2Proof.Machine
end

section
/-! PROOFS. The family of 42_conditional_skip.md: what a skip does to the state, and the words that decode to a skip. -/
namespace Sys2Proof

/-! ### The fields a masked word fixes -/

variable {w c : Word}

/-- Mask 0xF000 fixes the family nibble. -/
theorem toNat_opField_of_maskA (h : w &&& 0xF000#16 = c) : (opField w).toNat = c.toNat / 4096 := by
  have hm := and_maskA w
  rw [h] at hm
  omega

/-- Mask 0xF00F fixes the family nibble and the low nibble. -/
theorem toNat_opField_nField_of_maskXY (h : w &&& 0xF00F#16 = c) :
    (opField w).toNat = c.toNat / 4096 ∧ (nField w).toNat = c.toNat % 4096 := by
  have hm := and_maskXY w
  have hn := (nField w).isLt
  rw [h] at hm
  omega

/-! ### The four skip families of the decoder -/

theorem decodeWord_of_op3 (h : (opField w).toNat = 3) : decodeWord w = some (.seImm (xField w) (nnField w)) := by
  simp [decodeWord, h]

theorem decodeWord_of_op4 (h : (opField w).toNat = 4) : decodeWord w = some (.sneImm (xField w) (nnField w)) := by
  simp [decodeWord, h]

theorem decodeWord_of_op5 (h : (opField w).toNat = 5) :
    decodeWord w = if nField w = 0#4 then some (.seReg (xField w) (yField w)) else none := by
  simp [decodeWord, h]

theorem decodeWord_of_op9 (h : (opField w).toNat = 9) :
    decodeWord w = if nField w = 0#4 then some (.sneReg (xField w) (yField w)) else none := by
  simp [decodeWord, h]

end Sys2Proof

namespace Sys2Proof.Machine

/-! ### What a skip does -/

/-- A skip touches PC alone. -/
theorem State.onlyRegs_advance_skipIf (s : State) (c : Bool) : OnlyRegs [] s (s.advance.skipIf c) := by
  simp [OnlyRegs, SameRegsBut, SameStack, SameTimers, SameMem]

/-- The default advance and the skip's own add up to 4 (R150). -/
theorem State.advance_skipIf_pc (s : State) (c : Bool) :
    (s.advance.skipIf c).pc = if c then s.pc + 4#16 else s.pc + 2#16 := by
  cases c
  · simp
  · simp [BitVec.add_assoc]

/-- An instruction that advances and then skips when its test `c` of the condition `p` succeeds. -/
theorem exec_skips {i : Instr} {s : State} {c : Bool} {p : Prop} [Decidable p]
    (he : exec i s = .next (s.advance.skipIf c)) (hc : c = true ↔ p) :
    ∃ t, exec i s = .next t ∧ OnlyRegs [] s t ∧ t.pc = if p then s.pc + 4#16 else s.pc + 2#16 := by
  refine ⟨_, he, s.onlyRegs_advance_skipIf c, ?_⟩
  simp only [State.advance_skipIf_pc, hc]

/-- Settles O29: each skip is an advance and a skip on its test, and the masks fix the family nibble, 0xF00F the low
nibble too, which is what families 5 and 9 of the decoder ask for. -/
theorem skipsAdvanceByFourOrTwo : Obligations.SkipsAdvanceByFourOrTwo := by
  unfold Obligations.SkipsAdvanceByFourOrTwo
  refine ⟨fun x nn s => exec_skips rfl beq_iff_eq, fun x nn s => exec_skips rfl bne_iff_ne,
    fun x y s => exec_skips rfl beq_iff_eq, fun x y s => exec_skips rfl bne_iff_ne,
    fun w => ⟨fun h => ?_, fun h => ?_, fun h => ?_, fun h => ?_, fun h hn => ?_, fun h hn => ?_⟩⟩
  · exact decodeWord_of_op3 (toNat_opField_of_maskA h)
  · exact decodeWord_of_op4 (toNat_opField_of_maskA h)
  · obtain ⟨hop, hn⟩ := toNat_opField_nField_of_maskXY h
    rw [decodeWord_of_op5 hop, if_pos (BitVec.eq_of_toNat_eq hn)]
  · obtain ⟨hop, hn⟩ := toNat_opField_nField_of_maskXY h
    rw [decodeWord_of_op9 hop, if_pos (BitVec.eq_of_toNat_eq hn)]
  · rw [decodeWord_of_op5 (toNat_opField_of_maskA h), if_neg hn]
  · rw [decodeWord_of_op9 (toNat_opField_of_maskA h), if_neg hn]

end Sys2Proof.Machine
end

section
/-! PROOFS. The family of 43_register_alu.md: what an instruction that writes one register leaves as it was, and the
words that decode to ADD Vx, nn and LD Vx, Vy. -/
namespace Sys2Proof

/-! ### Families 7 and 8 of the decoder -/

variable {w : Word}

theorem decodeWord_of_op7 (h : (opField w).toNat = 7) : decodeWord w = some (.addImm (xField w) (nnField w)) := by
  simp [decodeWord, h]

theorem decodeWord_of_op8 (h : (opField w).toNat = 8) : decodeWord w = decodeAlu w := by
  simp [decodeWord, h]

theorem decodeAlu_of_n0 (h : (nField w).toNat = 0) : decodeAlu w = some (.ldReg (xField w) (yField w)) := by
  simp [decodeAlu, h]

end Sys2Proof

namespace Sys2Proof.Machine

/-! ### What a register write does -/

/-- An advance and a write to `x` touch PC and `x` alone, VF too only when it is `x` itself. -/
theorem State.onlyRegs_advance_setV (s : State) (x : Nibble) (b : Byte) : OnlyRegs [x] s (s.advance.setV x b) := by
  have hregs : SameRegsBut [x] s (s.advance.setV x b) := fun r hr =>
    s.advance.getV_setV_ne b (List.ne_of_not_mem_cons hr)
  simp [OnlyRegs, hregs, SameStack, SameTimers, SameMem]

/-- An instruction that advances and then writes `b` to register `x`. -/
theorem exec_writesReg {i : Instr} {s : State} {x : Nibble} {b : Byte}
    (he : exec i s = .next (s.advance.setV x b)) :
    ∃ t, exec i s = .next t ∧ t.getV x = b ∧ t.pc = s.pc + 2#16 ∧ OnlyRegs [x] s t :=
  ⟨_, he, s.advance.getV_setV_self x b, rfl, s.onlyRegs_advance_setV x b⟩

/-- Settles O31: ADD Vx, nn writes the 8-bit sum to Vx, and mask 0xF000 fixes the family nibble, which is all that
family 7 of the decoder asks for. -/
theorem addImmWrapsWithoutFlag : Obligations.AddImmWrapsWithoutFlag := by
  unfold Obligations.AddImmWrapsWithoutFlag
  refine ⟨fun x nn s => ?_, fun w h => decodeWord_of_op7 (toNat_opField_of_maskA h)⟩
  obtain ⟨t, he, hx, hpc, honly⟩ := exec_writesReg (i := .addImm x nn) (s := s) rfl
  exact ⟨t, he, by rw [hx, BitVec.toNat_add], hpc, honly⟩

/-- Settles O32: LD Vx, Vy writes Vy to Vx, and mask 0xF00F fixes the family nibble and the low nibble, which selects
the row of family 8. -/
theorem ldRegCopies : Obligations.LdRegCopies := by
  unfold Obligations.LdRegCopies
  refine ⟨fun x y s => exec_writesReg rfl, fun w h => ?_⟩
  obtain ⟨hop, hn⟩ := toNat_opField_nField_of_maskXY h
  rw [decodeWord_of_op8 hop, decodeAlu_of_n0 hn]

end Sys2Proof.Machine
end

section
/-! PROOFS. The family of 44_memory_index.md: what a write to I leaves as it was, and the words that decode to LD I. -/
namespace Sys2Proof

/-! ### Family A of the decoder -/

theorem decodeWord_of_opA {w : Word} (h : (opField w).toNat = 0xA) : decodeWord w = some (.ldI (nnnField w)) := by
  simp [decodeWord, h]

end Sys2Proof

namespace Sys2Proof.Machine

/-! ### What a write to I does -/

/-- An instruction that advances and then writes `a` to I changes PC, I and the step's signal alone. -/
theorem exec_writesI {i : Instr} {s : State} {a : Word} (he : exec i s = .next (s.advance.setI a)) :
    ∃ t, exec i s = .next t ∧ t.i = a ∧ t = { s with pc := s.pc + 2#16, i := t.i, signal := .none } :=
  ⟨_, he, rfl, rfl⟩

/-- Settles O38: LD I writes the zero-extended address to I, which 12 bits bound, and mask 0xF000 fixes the family
nibble, which is all that family A of the decoder asks for. -/
theorem ldILoadsAddress : Obligations.LdILoadsAddress := by
  unfold Obligations.LdILoadsAddress
  refine ⟨fun nnn s => ?_, fun w h => decodeWord_of_opA (toNat_opField_of_maskA h)⟩
  obtain ⟨t, he, hi, ht⟩ := exec_writesI (i := .ldI nnn) (s := s) rfl
  have hnnn : t.i.toNat = nnn.toNat := by rw [hi, toNat_addrOf]
  have hlt : nnn.toNat < 4096 := nnn.isLt
  exact ⟨t, he, hnnn, by omega, ht⟩

end Sys2Proof.Machine
end

section
/-! PROOFS. The family of 45_timers.md: what a write to DT leaves as it was, and the words that decode to LD DT. -/
namespace Sys2Proof

/-! ### The format-X words of family F -/

variable {w : Word}

/-- Mask 0xF0FF fixes the family nibble and the low byte. -/
theorem toNat_opField_nnField_of_maskX {c : Word} (h : w &&& 0xF0FF#16 = c) :
    (opField w).toNat = c.toNat / 4096 ∧ (nnField w).toNat = c.toNat % 4096 := by
  have hm := and_maskX w
  have hnn := (nnField w).isLt
  rw [h] at hm
  omega

theorem decodeWord_of_opF (h : (opField w).toNat = 0xF) : decodeWord w = decodeMisc w := by
  simp [decodeWord, h]

theorem decodeMisc_of_nn15 (h : (nnField w).toNat = 0x15) : decodeMisc w = some (.ldDtVx (xField w)) := by
  simp [decodeMisc, h]

end Sys2Proof

namespace Sys2Proof.Machine

/-! ### What a write to DT does -/

/-- An instruction that advances and then writes `b` to DT changes PC, DT and the step's signal alone. -/
theorem exec_writesDt {i : Instr} {s : State} {b : Byte} (he : exec i s = .next (s.advance.setDt b)) :
    ∃ t, exec i s = .next t ∧ t.dt = b ∧ t = { s with pc := s.pc + 2#16, dt := t.dt, signal := .none } :=
  ⟨_, he, rfl, rfl⟩

/-- Settles O45: LD DT, Vx writes Vx to DT, whatever the count, and mask 0xF0FF fixes the family nibble and the low
byte, which selects the row of family F. -/
theorem ldDtSetsDelayTimer : Obligations.LdDtSetsDelayTimer := by
  unfold Obligations.LdDtSetsDelayTimer
  refine ⟨fun x s => exec_writesDt rfl, fun w h => ?_⟩
  obtain ⟨hop, hnn⟩ := toNat_opField_nnField_of_maskX h
  rw [decodeWord_of_opF hop, decodeMisc_of_nn15 hnn]

end Sys2Proof.Machine
end

section
/-! PROOFS. The family of 47_drawing.md: a blit plots a list of cells one after the other, and the cells of a sprite of
at most 15 rows are distinct, so that the plots do not meet. -/
namespace Sys2Proof.Machine

/-! ### Plotting a list of cells -/

/-- A cell of the display by its row and column (10_state.md R30). -/
abbrev CellPos := Fin 32 × Fin 64

/-- The cell that row `r` and column `c` address, wrapped. -/
def cellPos (r c : Nat) : CellPos := (Fin.ofNat 32 r, Fin.ofNat 64 c)

theorem cellPos_eq_iff {r c r' c' : Nat} :
    cellPos r c = cellPos r' c' ↔ r % 32 = r' % 32 ∧ c % 64 = c' % 64 := by
  simp [cellPos, Prod.ext_iff, Fin.ext_iff]

/-- Toggles one cell and marks a collision when it was on: what a set bit of a sprite does (47_drawing.md R201). -/
def plot (d : Frame × Bool) (p : CellPos) : Frame × Bool := (toggleCell d.1 p.1 p.2, d.2 || cellAt d.1 p.1 p.2)

theorem plot_cellPos (d : Frame × Bool) (r c : Nat) :
    plot d (cellPos r c) = (toggleCell d.1 r c, d.2 || cellAt d.1 r c) := by
  simp [plot, cellPos, toggleCell, cellAt]

theorem cellAt_plot (d : Frame × Bool) (p q : CellPos) :
    cellAt (plot d p).1 q.1 q.2 = (cellAt d.1 q.1 q.2 ^^ decide (q = p)) := by
  rw [plot, cellAt_toggleCell]
  simp [Nat.mod_eq_of_lt, Prod.ext_iff, Fin.ext_iff, eq_comm]

/-- Plotting distinct cells flips exactly these. -/
theorem cellAt_foldl_plot {ps : List CellPos} (hps : ps.Nodup) (d : Frame × Bool) (q : CellPos) :
    cellAt (ps.foldl plot d).1 q.1 q.2 = (cellAt d.1 q.1 q.2 ^^ decide (q ∈ ps)) := by
  induction ps generalizing d with
  | nil => simp
  | cons p ps ih =>
    obtain ⟨hp, hps⟩ := List.nodup_cons.mp hps
    rw [List.foldl_cons, ih hps, cellAt_plot]
    by_cases hq : q = p
    · subst hq; simp [hp]
    · simp [hq]

/-- Plotting distinct cells reports a collision exactly when one of them was on at the start. -/
theorem collision_foldl_plot {ps : List CellPos} (hps : ps.Nodup) (d : Frame × Bool) :
    (ps.foldl plot d).2 = true ↔ d.2 = true ∨ ∃ p ∈ ps, cellAt d.1 p.1 p.2 = true := by
  induction ps generalizing d with
  | nil => simp
  | cons p ps ih =>
    obtain ⟨hp, hps⟩ := List.nodup_cons.mp hps
    have hkeep : ∀ q ∈ ps, cellAt (plot d p).1 q.1 q.2 = cellAt d.1 q.1 q.2 := by
      intro q hq
      have hne : q ≠ p := fun h => hp (h ▸ hq)
      simp [cellAt_plot, hne]
    have hrest : (∃ q ∈ ps, cellAt (plot d p).1 q.1 q.2 = true) ↔ ∃ q ∈ ps, cellAt d.1 q.1 q.2 = true :=
      exists_congr fun q => and_congr_right fun hq => by rw [hkeep q hq]
    rw [List.foldl_cons, ih hps, hrest]
    simp [plot, or_assoc]

/-! ### The cells of a sprite -/

/-- The cells that the set bits of one sprite row map to, left to right. -/
def rowCells (x0 y : Nat) (b : Byte) : List CellPos :=
  ((List.range 8).filter fun c => b.getLsbD (7 - c)).map fun c => cellPos y (x0 + c)

/-- The cells that the set bits of a sprite map to, in the order in which the blit meets them. -/
def spriteCells (x0 : Nat) : Nat → List Byte → List CellPos
  | _, [] => []
  | y, b :: bs => rowCells x0 y b ++ spriteCells x0 (y + 1) bs

theorem drawRow_eq_foldl_plot (x0 y : Nat) (b : Byte) (d : Frame × Bool) :
    drawRow x0 y b d = (rowCells x0 y b).foldl plot d := by
  have hbit : drawBit x0 y b = fun d c => if b.getLsbD (7 - c) then plot d (cellPos y (x0 + c)) else d := by
    funext d c
    rw [drawBit, plot_cellPos]
  rw [drawRow, rowCells, List.foldl_map, List.foldl_filter, hbit]

theorem drawRows_eq_foldl_plot (x0 y : Nat) (bs : List Byte) (d : Frame × Bool) :
    drawRows x0 y bs d = (spriteCells x0 y bs).foldl plot d := by
  induction bs generalizing y d with
  | nil => rfl
  | cons b bs ih => rw [drawRows, ih, drawRow_eq_foldl_plot, spriteCells, List.foldl_append]

theorem drawSprite_eq_foldl_plot (x0 y0 : Nat) (sp : List Byte) (f : Frame) :
    drawSprite x0 y0 sp f = (spriteCells x0 y0 sp).foldl plot (f, false) := drawRows_eq_foldl_plot x0 y0 sp _

theorem mem_rowCells {x0 y : Nat} {b : Byte} {p : CellPos} :
    p ∈ rowCells x0 y b ↔ ∃ c < 8, b.getLsbD (7 - c) = true ∧ y % 32 = p.1 ∧ (x0 + c) % 64 = p.2 := by
  simp [rowCells, cellPos, Prod.ext_iff, Fin.ext_iff, and_assoc]

/-- A sprite covers a cell by its first row or by the rows below it. -/
theorem spriteCovers_cons {x0 y : Nat} {b : Byte} {bs : List Byte} {p : CellPos} :
    SpriteCovers x0 y (b :: bs) p.1 p.2 ↔ p ∈ rowCells x0 y b ∨ SpriteCovers x0 (y + 1) bs p.1 p.2 := by
  rw [mem_rowCells]
  constructor
  · rintro ⟨r, c, hr, hc, hbit, hrow, hcol⟩
    cases r with
    | zero => exact .inl ⟨c, hc, hbit, hrow, hcol⟩
    | succ r => exact .inr ⟨r, c, Nat.lt_of_succ_lt_succ hr, hc, hbit, by omega, hcol⟩
  · rintro (⟨c, hc, hbit, hrow, hcol⟩ | ⟨r, c, hr, hc, hbit, hrow, hcol⟩)
    · exact ⟨0, c, Nat.zero_lt_succ _, hc, hbit, hrow, hcol⟩
    · exact ⟨r + 1, c, Nat.succ_lt_succ hr, hc, hbit, by omega, hcol⟩

theorem mem_spriteCells {x0 y : Nat} {bs : List Byte} {p : CellPos} :
    p ∈ spriteCells x0 y bs ↔ SpriteCovers x0 y bs p.1 p.2 := by
  induction bs generalizing y with
  | nil => simp [spriteCells, SpriteCovers]
  | cons b bs ih => rw [spriteCells, List.mem_append, ih, spriteCovers_cons]

/-- The eight columns of a row are distinct modulo 64. -/
theorem nodup_rowCells (x0 y : Nat) (b : Byte) : (rowCells x0 y b).Nodup := by
  refine List.Nodup.map_on ?_ (List.nodup_range.filter _)
  intro c hc c' hc' heq
  simp only [List.mem_filter, List.mem_range] at hc hc'
  have hcol : (x0 + c) % 64 = (x0 + c') % 64 := (cellPos_eq_iff.mp heq).2
  omega

/-- At most 32 rows are distinct modulo 32, so no two set bits of the sprite map to one cell. -/
theorem nodup_spriteCells (x0 y : Nat) {bs : List Byte} (hbs : bs.length ≤ 32) : (spriteCells x0 y bs).Nodup := by
  induction bs generalizing y with
  | nil => exact List.nodup_nil
  | cons b bs ih =>
    rw [List.length_cons] at hbs
    refine (nodup_rowCells x0 y b).append (ih (y + 1) (by omega)) ?_
    intro p hfirst hbelow
    obtain ⟨_, _, _, hrow, _⟩ := mem_rowCells.mp hfirst
    obtain ⟨r, _, hr, _, _, hrow', _⟩ := mem_spriteCells.mp hbelow
    omega

theorem rowCells_congr {x0 x1 y0 y1 : Nat} (hx : x0 % 64 = x1 % 64) (hy : y0 % 32 = y1 % 32) (b : Byte) :
    rowCells x0 y0 b = rowCells x1 y1 b :=
  List.map_congr_left fun _ _ => cellPos_eq_iff.mpr ⟨hy, by omega⟩

/-- The cells of a sprite depend on the place of the draw modulo 64 and 32 alone. -/
theorem spriteCells_congr {x0 x1 y0 y1 : Nat} (hx : x0 % 64 = x1 % 64) (hy : y0 % 32 = y1 % 32) (bs : List Byte) :
    spriteCells x0 y0 bs = spriteCells x1 y1 bs := by
  induction bs generalizing y0 y1 with
  | nil => rfl
  | cons b bs ih => rw [spriteCells, spriteCells, rowCells_congr hx hy, ih (y0 := y0 + 1) (y1 := y1 + 1) (by omega)]

/-! ### What a blit does -/

/-- A blit of at most 32 rows flips exactly the cells its sprite covers (R201). -/
theorem cellAt_drawSprite_eq_not_iff {x0 y0 : Nat} {sp : List Byte} (hsp : sp.length ≤ 32) (f : Frame) (p : CellPos) :
    cellAt (drawSprite x0 y0 sp f).1 p.1 p.2 = (!cellAt f p.1 p.2) ↔ SpriteCovers x0 y0 sp p.1 p.2 := by
  rw [drawSprite_eq_foldl_plot, cellAt_foldl_plot (nodup_spriteCells x0 y0 hsp), ← mem_spriteCells]
  cases cellAt f p.1 p.2 <;> simp

/-- A blit of at most 32 rows reports a collision exactly when a cell its sprite covers was on (R201). -/
theorem collision_drawSprite {x0 y0 : Nat} {sp : List Byte} (hsp : sp.length ≤ 32) (f : Frame) :
    (drawSprite x0 y0 sp f).2 = true ↔
      ∃ p : CellPos, SpriteCovers x0 y0 sp p.1 p.2 ∧ cellAt f p.1 p.2 = true := by
  rw [drawSprite_eq_foldl_plot, collision_foldl_plot (nodup_spriteCells x0 y0 hsp)]
  simp only [Bool.false_eq_true, false_or, mem_spriteCells]

/-- Two identical blits restore the display, since flipping twice is no change (R203 (a)). -/
theorem drawSprite_twice (x0 y0 : Nat) (sp : List Byte) (f : Frame) :
    (drawSprite x0 y0 sp (drawSprite x0 y0 sp f).1).1 = f := by
  refine frame_ext fun r c _ _ => ?_
  rw [cellAt_drawSprite, cellAt_drawSprite, Bool.xor_assoc, Bool.xor_self, Bool.xor_false]

/-- The second of two identical blits meets each covered cell as the first one left it, flipped (log 34). -/
theorem collision_drawSprite_twice {x0 y0 : Nat} {sp : List Byte} (hsp : sp.length ≤ 32) (f : Frame) :
    (drawSprite x0 y0 sp (drawSprite x0 y0 sp f).1).2 = true ↔
      ∃ p : CellPos, SpriteCovers x0 y0 sp p.1 p.2 ∧ cellAt f p.1 p.2 = false := by
  rw [collision_drawSprite hsp]
  refine exists_congr fun p => and_congr_right fun hp => ?_
  rw [(cellAt_drawSprite_eq_not_iff hsp f p).mpr hp, Bool.not_eq_true']

/-- Two blits give one display in either order, since the flips of a sprite do not depend on the display (R203 (d)). -/
theorem drawSprite_comm (x0 y0 x1 y1 : Nat) (a b : List Byte) (f : Frame) :
    (drawSprite x1 y1 b (drawSprite x0 y0 a f).1).1 = (drawSprite x0 y0 a (drawSprite x1 y1 b f).1).1 := by
  refine frame_ext fun r c _ _ => ?_
  simp only [cellAt_drawSprite]
  exact Bool.xor_right_comm _ _ _

theorem drawSprite_mod (x0 y0 : Nat) (sp : List Byte) (f : Frame) :
    drawSprite x0 y0 sp f = drawSprite (x0 % 64) (y0 % 32) sp f := by
  rw [drawSprite_eq_foldl_plot, drawSprite_eq_foldl_plot,
    spriteCells_congr (Nat.mod_mod x0 64).symm (Nat.mod_mod y0 32).symm]

/-- A cell by its row and column below the bounds is a cell of the display. -/
theorem exists_cellPos_iff {P : Nat → Nat → Prop} :
    (∃ p : CellPos, P p.1 p.2) ↔ ∃ r c, r < 32 ∧ c < 64 ∧ P r c :=
  ⟨fun ⟨p, hp⟩ => ⟨p.1, p.2, p.1.isLt, p.2.isLt, hp⟩, fun ⟨r, c, hr, hc, hp⟩ => ⟨(⟨r, hr⟩, ⟨c, hc⟩), hp⟩⟩

/-- Settles O55: a blit flips a set of cells that does not depend on the display, so it is its own inverse and commutes
with every other; the cells of at most 15 rows are distinct, so the second blit meets each as the first left it; and the
set depends on the coordinates modulo 64 and 32 alone. -/
theorem blitTwiceRestoresAndBlitsCommute : Obligations.BlitTwiceRestoresAndBlitsCommute := by
  unfold Obligations.BlitTwiceRestoresAndBlitsCommute
  refine ⟨fun x0 y0 sp f hsp => ⟨drawSprite_twice x0 y0 sp f, ?_⟩, drawSprite_comm, drawSprite_mod⟩
  have hsp32 : sp.length ≤ 32 := hsp.trans (by decide)
  rw [collision_drawSprite_twice hsp32]
  exact exists_cellPos_iff (P := fun r c => SpriteCovers x0 y0 sp r c ∧ cellAt f r c = false)

end Sys2Proof.Machine
end

section
/-! PROOFS. The family of 48_random.md: what the machine does whatever the random source holds, and the one instruction
that draws from it. -/
namespace Sys2Proof

/-! ### Family C of the decoder -/

theorem decodeWord_of_opC {w : Word} (h : (opField w).toNat = 0xC) :
    decodeWord w = some (.rnd (xField w) (nnField w)) := by
  simp [decodeWord, h]

theorem decodeWord_encode_rnd (x : Nibble) (nn : Byte) : decodeWord (encode (.rnd x nn)) = some (.rnd x nn) := by
  have hop : (opField (encode (.rnd x nn))).toNat = 0xC := opField_packXI 0xC (by decide) x nn
  rw [decodeWord_of_opC hop]
  simp [encode]

end Sys2Proof

namespace Sys2Proof.Machine

/-! ### Another random source in the same machine -/

/-- The state with another random source beside it. No operation but the draw of RND looks at the source, so every other
one commutes with this. -/
def State.withRandom (s : State) (r : RandomSource) : State := { s with random := r }

section
variable (s : State) (r : RandomSource)

@[simp] theorem State.withRandom_i : (s.withRandom r).i = s.i := rfl
@[simp] theorem State.withRandom_fb : (s.withRandom r).fb = s.fb := rfl
@[simp] theorem State.withRandom_pc : (s.withRandom r).pc = s.pc := rfl
@[simp] theorem State.withRandom_getV (x : Nibble) : (s.withRandom r).getV x = s.getV x := rfl
@[simp] theorem State.withRandom_blockOf (x : Nibble) : (s.withRandom r).blockOf x = s.blockOf x := rfl
@[simp] theorem State.withRandom_leastKeyDown : (s.withRandom r).leastKeyDown = s.leastKeyDown := rfl
@[simp] theorem State.withRandom_load (a n : Nat) : (s.withRandom r).load a n = s.load a n := rfl
@[simp] theorem State.withRandom_fetch : (s.withRandom r).fetch = s.fetch := rfl
@[simp] theorem State.withRandom_advance : (s.withRandom r).advance = s.advance.withRandom r := rfl

@[simp] theorem State.withRandom_setV (x : Nibble) (b : Byte) :
    (s.withRandom r).setV x b = (s.setV x b).withRandom r := rfl
@[simp] theorem State.withRandom_setPc (a : Word) : (s.withRandom r).setPc a = (s.setPc a).withRandom r := rfl
@[simp] theorem State.withRandom_setFb (f : Frame) : (s.withRandom r).setFb f = (s.setFb f).withRandom r := rfl
@[simp] theorem State.withRandom_raise (g : Signal) : (s.withRandom r).raise g = (s.raise g).withRandom r := rfl

theorem State.withRandom_skipIf (c : Bool) : (s.withRandom r).skipIf c = (s.skipIf c).withRandom r := by
  cases c <;> rfl

@[simp] theorem State.withRandom_setBlock (k : Nat) (bs : List Byte) :
    (s.withRandom r).setBlock k bs = (s.setBlock k bs).withRandom r := by
  induction bs generalizing s k with
  | nil => rfl
  | cons b bs ih => exact ih (s.setV (BitVec.ofNat 4 k) b) (k + 1)

@[simp] theorem State.withRandom_push (a : Word) : (s.withRandom r).push a = (s.push a).map (·.withRandom r) := by
  by_cases h : s.sp.val < 16
  · rw [s.push_of_lt a h]
    exact (s.withRandom r).push_of_lt a h
  · have hfull : s.sp.val = 16 := by omega
    rw [s.push_of_full a hfull]
    exact (s.withRandom r).push_of_full a hfull

@[simp] theorem State.withRandom_pop : (s.withRandom r).pop = s.pop.map (Prod.map id (·.withRandom r)) := by
  rcases Nat.eq_zero_or_pos s.sp.val with h | h
  · rw [s.pop_of_empty h]
    exact (s.withRandom r).pop_of_empty h
  · rw [s.pop_of_pos h]
    exact (s.withRandom r).pop_of_pos h

@[simp] theorem State.withRandom_store (a : Nat) (bs : List Byte) :
    (s.withRandom r).store a bs = (s.store a bs).map (·.withRandom r) := by
  cases h : inRange a bs.length
  · rw [s.store_of_outOfRange h, (s.withRandom r).store_of_outOfRange h]
    rfl
  · rw [s.store_of_inRange h, (s.withRandom r).store_of_inRange h]
    rfl

end

/-! ### Independence of the random source (R210) -/

/-- At the state `s`, `f` answers a next state, and with any other random source the same one beside that source. -/
def RandomBlind (f : State → Host.Outcome State Fault Refusal) (s : State) : Prop :=
  ∃ t, f s = .next t ∧ ∀ r, f (s.withRandom r) = .next (t.withRandom r)

/-- Every instruction but RND is blind to the source. Seven of them first ask the stack, the keys or the range check,
which answer the same whatever the source; six skip on a test of the registers or the keys. -/
theorem randomBlind_exec {i : Instr} (hi : ∀ x nn, i ≠ .rnd x nn) (s : State) : RandomBlind (exec i) s := by
  cases i with
  | rnd x nn => exact absurd rfl (hi x nn)
  | seImm | sneImm | seReg | sneReg | skp | sknp =>
    exact ⟨_, rfl, fun r => congrArg Host.Outcome.next (s.advance.withRandom_skipIf r _)⟩
  | ret | call | drw | ldVxK | ldB | ldMemVx | ldVxMem =>
    simp only [RandomBlind, exec, execRet, execCall, execDrw, execLdVxK, execLdB, execLdMemVx, execLdVxMem]
    split <;> exact ⟨_, rfl, fun r => by simp_all⟩
  | _ => exact ⟨_, rfl, fun _ => rfl⟩

/-- A step is blind to the source at a failed fetch, at an unknown word and at every instruction but RND. -/
theorem randomBlind_step {s : State} (hs : ∀ w x nn, s.fetch = some w → decodeWord w ≠ some (.rnd x nn)) :
    RandomBlind step s := by
  cases hf : s.fetch with
  | none => exact ⟨_, step_of_fetch_none hf, fun r => step_of_fetch_none ((s.withRandom_fetch r).trans hf)⟩
  | some w =>
    have hfr : ∀ r, (s.withRandom r).fetch = some w := fun r => (s.withRandom_fetch r).trans hf
    cases hd : decodeWord w with
    | none => exact ⟨_, step_of_decode_none hf hd, fun r => step_of_decode_none (hfr r) hd⟩
    | some i =>
      have hi : ∀ x nn, i ≠ .rnd x nn := fun x nn he => hs w x nn hf (he ▸ hd)
      obtain ⟨t, ht, hr⟩ := randomBlind_exec hi s
      exact ⟨t, (step_of_decode_some hf hd).trans ht, fun r => (step_of_decode_some (hfr r) hd).trans (hr r)⟩

/-- Where the step is blind to the source, the byte it is given is dropped unused (49_host_operations.md R221). -/
theorem stepWith_of_randomBlind {s : State} (h : RandomBlind step s) :
    ∃ t, step s = .next t ∧ ∀ b, stepWith b s = .next (t.withRandom { s.random with pending := [] }) := by
  obtain ⟨t, ht, hr⟩ := h
  exact ⟨t, ht, fun b => (stepWith_eq_next_iff s b _).2 ⟨_, hr { s.random with pending := [b] }, rfl⟩⟩

/-- Settles O17: no operation of an instruction but RND looks at the source, and the byte given to a step is a source
like any other, which the end of the step empties. -/
theorem onlyRndUsesTheRandomSource : Obligations.OnlyRndUsesTheRandomSource := by
  unfold Obligations.OnlyRndUsesTheRandomSource
  refine ⟨fun i s r hi => ?_, fun s b b' hs => ?_⟩
  · obtain ⟨t, ht, hr⟩ := randomBlind_exec hi s
    exact ⟨t, ht, hr r⟩
  · obtain ⟨t, ht, hb⟩ := stepWith_of_randomBlind (randomBlind_step hs)
    exact ⟨(hb b).trans (hb b').symm, t, ht, hb b⟩

/-! ### What RND does (R211) -/

theorem exec_rnd (x : Nibble) (nn : Byte) (s : State) :
    exec (.rnd x nn) s = .next (s.advance.setV x (s.rndByte &&& nn)).consumeByte := rfl

/-- A step of RND draws the byte it is given (R210). -/
theorem stepWith_of_fetch_rnd {x : Nibble} {nn : Byte} {s : State} (b : Byte)
    (hf : s.fetch = some (encode (.rnd x nn))) :
    stepWith b s = .next ((s.giveByte b).advance.setV x (b &&& nn)).consumeByte.dropBytes := by
  have hstep := step_of_decode_some (s := s.giveByte b) hf (decodeWord_encode_rnd x nn)
  exact (stepWith_eq_next_iff s b _).2 ⟨_, hstep.trans (exec_rnd x nn _), rfl⟩

theorem State.rndByte_of_pending {s : State} {b : Byte} {rest : List Byte} (h : s.random.pending = b :: rest) :
    s.rndByte = b := by
  simp [State.rndByte, RandomSource.byte, h]

/-- Settles O52: RND writes its byte under the mask to Vx and consumes it; the byte is the first one the host has fixed,
and the one a step is given. -/
theorem rndMasksTheRandomByte : Obligations.RndMasksTheRandomByte := by
  unfold Obligations.RndMasksTheRandomByte
  refine ⟨fun x nn s => ?_, fun x nn b s hf => ?_⟩
  · obtain ⟨hregs, -⟩ := s.onlyRegs_advance_setV x (s.rndByte &&& nn)
    refine ⟨_, exec_rnd x nn s, ?_, fun k hk => ?_, fun b rest hb => ?_, hregs, rfl⟩
    · simp
    · simp [hk]
    · simp [State.rndByte_of_pending hb, hb]
  · obtain ⟨hregs, -⟩ := s.onlyRegs_advance_setV x (b &&& nn)
    exact ⟨_, stepWith_of_fetch_rnd b hf, by simp, hregs, rfl⟩

end Sys2Proof.Machine
end

section
/-! PROOFS. The family of 49_host_operations.md: what the two key events do to the sixteen keys. -/
namespace Sys2Proof.Machine

/-! ### Key events (R223, R224) -/

theorem State.setKey_eq_self {s : State} {k : Nibble} {d : Bool} (h : s.keyDown? k = d) : s.setKey k d = s := by
  subst h
  rw [State.setKey, State.keyDown?, Vector.set_getElem_self]

/-- The keys are independent (R224): a key is down after presses when it was pressed or was down before. -/
theorem State.keyDown_foldl_pressKey (down : List Nibble) (s : State) (k : Nibble) :
    (down.foldl State.pressKey s).keyDown? k = (decide (k ∈ down) || s.keyDown? k) := by
  induction down generalizing s with
  | nil => simp
  | cons j js ih =>
    rw [List.foldl_cons, ih, State.pressKey, State.keyDown_setKey]
    by_cases hkj : k = j <;> simp [hkj]

/-- What either key event does: `KEY[k]` gets its new value, the other keys and the rest of the state are as before, and
a key that has that value already makes it no change at all. -/
theorem setKey_changes_one_key (d : Bool) (k : Nibble) (s : State) :
    (s.setKey k d).keyDown? k = d ∧ (∀ j, j ≠ k → (s.setKey k d).keyDown? j = s.keyDown? j) ∧
      s.setKey k d = { s with key := (s.setKey k d).key } ∧ (s.keyDown? k = d → s.setKey k d = s) := by
  refine ⟨?_, fun j hj => ?_, rfl, State.setKey_eq_self⟩
  · rw [State.keyDown_setKey, if_pos rfl]
  · rw [State.keyDown_setKey, if_neg hj]

/-- Settles O51: both events are a write of one key, and presses from all keys up, by induction on their list, leave
exactly its keys down. -/
theorem keyEventsChangeOneKey : Obligations.KeyEventsChangeOneKey := by
  unfold Obligations.KeyEventsChangeOneKey
  refine ⟨setKey_changes_one_key false, setKey_changes_one_key true, fun down s hup k => ?_⟩
  rw [State.keyDown_foldl_pressKey, hup k, Bool.or_false]

end Sys2Proof.Machine
end

section
/-! PROOFS. The family of 30_encoding.md: the decoder is the first covering row of the opcode map, no word lies in two
rows, and a row's word and its instruction give each other back. -/
namespace Sys2Proof

/-! ### No word lies in two rows (R94) -/

/-- Two rows that cover one word agree wherever both of their masks look. -/
theorem OpcodeRow.and_mask_eq_of_covers {r r' : OpcodeRow} {w : Word} (h : r.covers w = true)
    (h' : r'.covers w = true) : r.pattern &&& r'.mask = r'.pattern &&& r.mask := by
  simp only [OpcodeRow.covers, beq_iff_eq] at h h'
  rw [← h, ← h', BitVec.and_assoc, BitVec.and_assoc, BitVec.and_comm r.mask]

/-- Any two rows of the map differ in a bit that both of their masks keep. -/
theorem opcodeMap_pairwise : opcodeMap.Pairwise fun r r' => r.pattern &&& r'.mask ≠ r'.pattern &&& r.mask := by
  decide

theorem length_filter_le_one {α : Type} {l : List α} {p : α → Bool}
    (h : l.Pairwise fun a b => ¬ (p a = true ∧ p b = true)) : (l.filter p).length ≤ 1 := by
  have hp : (l.filter p).Pairwise fun _ _ => False := by
    rw [List.pairwise_filter]
    exact h.imp fun hab ha hb => hab ⟨ha, hb⟩
  match l.filter p, hp with
  | [], _ | [_], _ => simp
  | _ :: _ :: _, hp => exact absurd (List.rel_of_pairwise_cons hp List.mem_cons_self) id

theorem length_filter_covers_le_one (w : Word) : (opcodeMap.filter fun r => r.covers w).length ≤ 1 :=
  length_filter_le_one (opcodeMap_pairwise.imp fun hne ⟨h, h'⟩ => hne (OpcodeRow.and_mask_eq_of_covers h h'))

/-! ### A row in terms of the fields (R92) -/

section
variable (w p : Word) (b : Word → Instr)

theorem covers_exact : (OpcodeRow.mk 0xFFFF p b).covers w = decide (w = p) := by
  have h : w &&& 0xFFFF#16 = w := BitVec.and_allOnes
  show ((w &&& 0xFFFF#16) == p) = _
  rw [h, Bool.beq_eq_decide_eq]

theorem covers_maskA : (OpcodeRow.mk 0xF000 p b).covers w =
    decide ((opField w).toNat = p.toNat / 4096 ∧ p.toNat % 4096 = 0) := by
  have hm := and_maskA w
  rw [OpcodeRow.covers, Bool.beq_eq_decide_eq, decide_eq_decide, ← BitVec.toNat_inj]
  show (w &&& 0xF000#16).toNat = p.toNat ↔ _
  omega

theorem covers_maskXY : (OpcodeRow.mk 0xF00F p b).covers w =
    decide ((opField w).toNat = p.toNat / 4096 ∧ (nField w).toNat = p.toNat % 4096) := by
  have hm := and_maskXY w
  have hn := (nField w).isLt
  rw [OpcodeRow.covers, Bool.beq_eq_decide_eq, decide_eq_decide, ← BitVec.toNat_inj]
  show (w &&& 0xF00F#16).toNat = p.toNat ↔ _
  omega

theorem covers_maskX : (OpcodeRow.mk 0xF0FF p b).covers w =
    decide ((opField w).toNat = p.toNat / 4096 ∧ (nnField w).toNat = p.toNat % 4096) := by
  have hm := and_maskX w
  have hnn := (nnField w).isLt
  rw [OpcodeRow.covers, Bool.beq_eq_decide_eq, decide_eq_decide, ← BitVec.toNat_inj]
  show (w &&& 0xF0FF#16).toNat = p.toNat ↔ _
  omega

end

/-! ### The decoder is the opcode map -/

/-- A word outside family 0 is neither CLS nor RET. -/
theorem ne_sys_of_opField_ne {w : Word} (h : (opField w).toNat ≠ 0) : w ≠ 0x00E0#16 ∧ w ≠ 0x00EE#16 :=
  ⟨fun e => h (e ▸ rfl), fun e => h (e ▸ rfl)⟩

/-- The decoder's match on the family, and in the families 8, E and F on the rest of the pattern, picks the row that the
search finds: the fields decide for every row whether it covers the word. -/
theorem decodeWord_eq_find (w : Word) :
    decodeWord w = (opcodeMap.find? fun r => r.covers w).map fun r => r.build w := by
  simp only [opcodeMap, opcodeMapLow, opcodeMapAlu, opcodeMapHigh, List.cons_append, List.nil_append,
    List.find?_cons, covers_exact, covers_maskA, covers_maskXY, covers_maskX]
  by_cases h0 : (opField w).toNat = 0
  · simp only [decodeWord, h0, decodeSys]
    by_cases h1 : w = 0x00E0#16
    · simp [h1]
    · by_cases h2 : w = 0x00EE#16 <;> simp [h1, h2]
  · obtain ⟨h1, h2⟩ := ne_sys_of_opField_ne h0
    unfold decodeWord
    split
    case h_1 h => exact absurd h h0
    case h_6 h | h_10 h => by_cases h3 : (nField w).toNat = 0 <;> simp [h, h1, h2, ← BitVec.toNat_inj, h3]
    case h_9 h =>
      unfold decodeAlu
      split <;> simp_all
    case h_15 h =>
      unfold decodeKey
      split <;> simp_all
    case h_16 =>
      have h : (opField w).toNat = 15 := by
        have hlt := (opField w).isLt
        simp only [imp_false] at *
        omega
      unfold decodeMisc
      split <;> simp_all
    all_goals simp [*]

/-- Settles O20: the rows are found by their fields, and any two of them differ in a bit that both masks keep. -/
theorem decoderIsTheOpcodeMap : Obligations.DecoderIsTheOpcodeMap := by
  unfold Obligations.DecoderIsTheOpcodeMap
  exact ⟨decodeWord_eq_find, length_filter_covers_le_one⟩

/-- A word decodes to what a row that covers it builds, whichever row that is (R94). -/
theorem decodeWord_eq_some_iff {w : Word} {i : Instr} :
    decodeWord w = some i ↔ ∃ r ∈ opcodeMap, r.covers w = true ∧ r.build w = i := by
  rw [decodeWord_eq_find, Option.map_eq_some_iff]
  constructor
  · rintro ⟨r, hr, hi⟩
    exact ⟨r, List.mem_of_find?_eq_some hr, by simpa using List.find?_some hr, hi⟩
  · rintro ⟨r, hr, hc, hi⟩
    have hmem : r ∈ opcodeMap.filter fun r => r.covers w := List.mem_filter.2 ⟨hr, hc⟩
    obtain ⟨r', hr'⟩ := List.length_eq_one_iff.1
      (Nat.le_antisymm (length_filter_covers_le_one w) (List.length_pos_of_mem hmem))
    rw [hr', List.mem_singleton] at hmem
    refine ⟨r, ?_, hi⟩
    rw [← List.head?_filter, hr', hmem]
    rfl

/-! ### Decoding the encoding -/

/-- Every instruction's word lies in a row that gives the instruction back. -/
theorem opcodeMapRow (i : Instr) : Laws.OpcodeMapRow.Statement i := by
  cases i with
  | cls => exact Laws.OpcodeMapRow.cls
  | ret => exact Laws.OpcodeMapRow.ret
  | jp nnn => exact Laws.OpcodeMapRow.jp nnn
  | call nnn => exact Laws.OpcodeMapRow.call nnn
  | seImm x nn => exact Laws.OpcodeMapRow.seImm x nn
  | sneImm x nn => exact Laws.OpcodeMapRow.sneImm x nn
  | seReg x y => exact Laws.OpcodeMapRow.seReg x y
  | ldImm x nn => exact Laws.OpcodeMapRow.ldImm x nn
  | addImm x nn => exact Laws.OpcodeMapRow.addImm x nn
  | ldReg x y => exact Laws.OpcodeMapRow.ldReg x y
  | or x y => exact Laws.OpcodeMapRow.or x y
  | and x y => exact Laws.OpcodeMapRow.and x y
  | xor x y => exact Laws.OpcodeMapRow.xor x y
  | addReg x y => exact Laws.OpcodeMapRow.addReg x y
  | sub x y => exact Laws.OpcodeMapRow.sub x y
  | shr x => exact Laws.OpcodeMapRow.shr x
  | subn x y => exact Laws.OpcodeMapRow.subn x y
  | shl x => exact Laws.OpcodeMapRow.shl x
  | sneReg x y => exact Laws.OpcodeMapRow.sneReg x y
  | ldI nnn => exact Laws.OpcodeMapRow.ldI nnn
  | jpV0 nnn => exact Laws.OpcodeMapRow.jpV0 nnn
  | rnd x nn => exact Laws.OpcodeMapRow.rnd x nn
  | drw x y n => exact Laws.OpcodeMapRow.drw x y n
  | skp x => exact Laws.OpcodeMapRow.skp x
  | sknp x => exact Laws.OpcodeMapRow.sknp x
  | ldVxDt x => exact Laws.OpcodeMapRow.ldVxDt x
  | ldVxK x => exact Laws.OpcodeMapRow.ldVxK x
  | ldDtVx x => exact Laws.OpcodeMapRow.ldDtVx x
  | ldStVx x => exact Laws.OpcodeMapRow.ldStVx x
  | addI x => exact Laws.OpcodeMapRow.addI x
  | ldF x => exact Laws.OpcodeMapRow.ldF x
  | ldB x => exact Laws.OpcodeMapRow.ldB x
  | ldMemVx x => exact Laws.OpcodeMapRow.ldMemVx x
  | ldVxMem x => exact Laws.OpcodeMapRow.ldVxMem x

theorem decodeWord_encode (i : Instr) : decodeWord (encode i) = some i :=
  decodeWord_eq_some_iff.2 (opcodeMapRow i)

/-- Settles O18: the instruction's row covers its word, and the decoder answers what that row builds; the two bytes are
those of the same word. -/
theorem decodeOfEncode : Obligations.DecodeOfEncode := by
  unfold Obligations.DecodeOfEncode
  refine fun i _ => ⟨decodeWord_encode i, fun rest => Machine.decodeBytes_eq_ok_iff.2 ⟨?_, rfl⟩⟩
  rw [wordOfBytes_hiByte_loByte, decodeWord_encode]

/-! ### Encoding the decoded instruction -/

/-- Mask 0xFF0F clears the y field. -/
theorem and_maskNotY (w : Word) :
    (w &&& 0xFF0F#16).toNat = (opField w).toNat * 4096 + (xField w).toNat * 256 + (nField w).toNat := by
  have h : w &&& 0xFF0F#16 = ((w >>> 8) <<< 8) ||| (nField w).setWidth 16 := by
    ext i hi
    simp [nField, BitVec.getElem_shiftLeft]
    interval_cases i <;> simp [BitVec.getLsbD_eq_getElem]
  have d : ((w >>> 8) <<< 8) &&& (nField w).setWidth 16 = 0#16 := by
    ext i hi
    simp [nField, BitVec.getElem_shiftLeft]
    interval_cases i <;> simp
  rw [h, ← BitVec.add_eq_or_of_and_eq_zero _ _ d, BitVec.toNat_add, toNat_opField, toNat_xField]
  simp [toNat_nField, Nat.shiftRight_eq_div_pow, Nat.shiftLeft_eq]
  omega

section
variable {w : Word} {op : Nat} (hop : (opField w).toNat = op)
include hop

theorem packA_nnnField : packA op (nnnField w) = w := by
  subst hop
  apply BitVec.eq_of_toNat_eq
  rw [toNat_packA _ (opField w).isLt, toNat_nnnField, toNat_opField]
  omega

theorem packXI_xField_nnField : packXI op (xField w) (nnField w) = w := by
  subst hop
  apply BitVec.eq_of_toNat_eq
  rw [toNat_packXI _ (opField w).isLt, toNat_xField, toNat_nnField, toNat_opField]
  omega

theorem packXYN_xField_yField_nField : packXYN op (xField w) (yField w) (nField w) = w := by
  subst hop
  apply BitVec.eq_of_toNat_eq
  rw [toNat_packXYN _ (opField w).isLt, toNat_xField, toNat_yField, toNat_nField, toNat_opField]
  omega

theorem packXI_xField {nn : Byte} (hnn : (nnField w).toNat = nn.toNat) : packXI op (xField w) nn = w := by
  rw [← BitVec.eq_of_toNat_eq hnn, packXI_xField_nnField hop]

theorem packXYN_xField_yField {n : Nibble} (hn : (nField w).toNat = n.toNat) :
    packXYN op (xField w) (yField w) n = w := by
  rw [← BitVec.eq_of_toNat_eq hn, packXYN_xField_yField_nField hop]

theorem packXYN_xField_zero {n : Nibble} (hn : (nField w).toNat = n.toNat) :
    packXYN op (xField w) 0#4 n = w &&& 0xFF0F#16 := by
  subst hop
  apply BitVec.eq_of_toNat_eq
  rw [toNat_packXYN _ (opField w).isLt, and_maskNotY, hn]
  simp

end

/-- Row by row, in the order of the map: the word of what a row builds from a word it covers. -/
theorem encode_build_of_covers {w : Word} : ∀ r ∈ opcodeMap, r.covers w = true →
    encode (r.build w) = w ∨
      ∃ x, (r.build w = .shr x ∨ r.build w = .shl x) ∧ encode (r.build w) = w &&& 0xFF0F#16 := by
  simp only [opcodeMap, opcodeMapLow, opcodeMapAlu, opcodeMapHigh, List.cons_append, List.nil_append,
    List.forall_mem_cons, covers_exact, covers_maskA, covers_maskXY, covers_maskX, decide_eq_true_eq, encode]
  exact ⟨fun h => .inl h.symm, fun h => .inl h.symm,
    fun h => .inl (packA_nnnField h.1), fun h => .inl (packA_nnnField h.1),
    fun h => .inl (packXI_xField_nnField h.1), fun h => .inl (packXI_xField_nnField h.1),
    fun h => .inl (packXYN_xField_yField h.1 h.2),
    fun h => .inl (packXI_xField_nnField h.1), fun h => .inl (packXI_xField_nnField h.1),
    fun h => .inl (packXYN_xField_yField h.1 h.2), fun h => .inl (packXYN_xField_yField h.1 h.2),
    fun h => .inl (packXYN_xField_yField h.1 h.2), fun h => .inl (packXYN_xField_yField h.1 h.2),
    fun h => .inl (packXYN_xField_yField h.1 h.2), fun h => .inl (packXYN_xField_yField h.1 h.2),
    fun h => .inr ⟨_, .inl rfl, packXYN_xField_zero h.1 h.2⟩,
    fun h => .inl (packXYN_xField_yField h.1 h.2),
    fun h => .inr ⟨_, .inr rfl, packXYN_xField_zero h.1 h.2⟩,
    fun h => .inl (packXYN_xField_yField h.1 h.2),
    fun h => .inl (packA_nnnField h.1), fun h => .inl (packA_nnnField h.1),
    fun h => .inl (packXI_xField_nnField h.1), fun h => .inl (packXYN_xField_yField_nField h.1),
    fun h => .inl (packXI_xField h.1 h.2), fun h => .inl (packXI_xField h.1 h.2),
    fun h => .inl (packXI_xField h.1 h.2), fun h => .inl (packXI_xField h.1 h.2),
    fun h => .inl (packXI_xField h.1 h.2), fun h => .inl (packXI_xField h.1 h.2),
    fun h => .inl (packXI_xField h.1 h.2), fun h => .inl (packXI_xField h.1 h.2),
    fun h => .inl (packXI_xField h.1 h.2), fun h => .inl (packXI_xField h.1 h.2),
    fun h => .inl (packXI_xField h.1 h.2), List.forall_mem_nil _⟩

/-- Settles O19: the word lies in the row that built the instruction, so its fields are what the encoder packs again,
but for the y field of the shifts. -/
theorem encodeOfDecode : Obligations.EncodeOfDecode := by
  unfold Obligations.EncodeOfDecode
  intro w i h
  obtain ⟨r, hr, hc, rfl⟩ := decodeWord_eq_some_iff.1 h
  exact encode_build_of_covers r hr hc

/-! ### The unknown words (R98) -/

section
variable {w : Word}

theorem nnnField_eq_iff (hop : (opField w).toNat = 0) (c : Addr12) : nnnField w = c ↔ w = packA 0 c := by
  constructor
  · rintro rfl
    exact (packA_nnnField hop).symm
  · rintro rfl
    exact nnnField_packA 0 c

theorem decodeSys_eq_none_iff (hop : (opField w).toNat = 0) :
    decodeSys w = none ↔ nnnField w ≠ 0x0E0#12 ∧ nnnField w ≠ 0x0EE#12 := by
  have hcls : packA 0 0x0E0#12 = 0x00E0#16 := by decide
  have hret : packA 0 0x0EE#12 = 0x00EE#16 := by decide
  rw [Ne, nnnField_eq_iff hop, hcls, Ne, nnnField_eq_iff hop, hret]
  unfold decodeSys
  split <;> simp_all

theorem decodeAlu_eq_none_iff :
    decodeAlu w = none ↔ nField w ∈ [0x8#4, 0x9#4, 0xA#4, 0xB#4, 0xC#4, 0xD#4, 0xF#4] := by
  have hlt := (nField w).isLt
  simp only [List.mem_cons, List.not_mem_nil, ← BitVec.toNat_inj]
  unfold decodeAlu
  split <;> simp_all
  omega

theorem decodeKey_eq_none_iff : decodeKey w = none ↔ nnField w ∉ [0x9E#8, 0xA1#8] := by
  simp only [List.mem_cons, List.not_mem_nil, ← BitVec.toNat_inj]
  unfold decodeKey
  split <;> simp_all

theorem decodeMisc_eq_none_iff : decodeMisc w = none ↔
    nnField w ∉ [0x07#8, 0x0A#8, 0x15#8, 0x18#8, 0x1E#8, 0x29#8, 0x33#8, 0x55#8, 0x65#8] := by
  simp only [List.mem_cons, List.not_mem_nil, ← BitVec.toNat_inj]
  unfold decodeMisc
  split <;> simp_all

end

/-- Settles O21: family by family; six of the sixteen have unknown words. -/
theorem unknownWordsAreExactlyTheSets : Obligations.UnknownWordsAreExactlyTheSets := by
  unfold Obligations.UnknownWordsAreExactlyTheSets
  intro w
  have hop := (opField w).isLt
  simp only [← BitVec.toNat_inj (x := opField w)]
  rcases Nat.eq_zero_or_pos (opField w).toNat with h | hpos
  · simp [decodeWord, h, decodeSys_eq_none_iff h]
  · interval_cases h : (opField w).toNat <;>
      simp [decodeWord, h, decodeAlu_eq_none_iff, decodeKey_eq_none_iff, decodeMisc_eq_none_iff]

/-- Settles O22: thirteen closed words, run through the decoder. -/
theorem workedWordsDecode : Obligations.WorkedWordsDecode := by
  unfold Obligations.WorkedWordsDecode
  decide

end Sys2Proof
end

section
/-! PROOFS. What an instruction answers, said once for all 34: the states in which it raises and the signal it raises
(60_exceptions.md R245), the rule of each instruction that asks the stack, the keys or the range check first, and an
inversion by the part of the state that is written. -/
namespace Sys2Proof.Machine

/-! ### Loading registers leaves the rest alone -/

section
variable (s : State) (k : Nat) (bs : List Byte)

@[simp] theorem State.setBlock_mem : (s.setBlock k bs).mem = s.mem := by rw [State.setBlock_eq]
@[simp] theorem State.setBlock_i : (s.setBlock k bs).i = s.i := by rw [State.setBlock_eq]
@[simp] theorem State.setBlock_pc : (s.setBlock k bs).pc = s.pc := by rw [State.setBlock_eq]
@[simp] theorem State.setBlock_stk : (s.setBlock k bs).stk = s.stk := by rw [State.setBlock_eq]
@[simp] theorem State.setBlock_sp : (s.setBlock k bs).sp = s.sp := by rw [State.setBlock_eq]
@[simp] theorem State.setBlock_dt : (s.setBlock k bs).dt = s.dt := by rw [State.setBlock_eq]
@[simp] theorem State.setBlock_st : (s.setBlock k bs).st = s.st := by rw [State.setBlock_eq]
@[simp] theorem State.setBlock_fb : (s.setBlock k bs).fb = s.fb := by rw [State.setBlock_eq]
@[simp] theorem State.setBlock_key : (s.setBlock k bs).key = s.key := by rw [State.setBlock_eq]
@[simp] theorem State.setBlock_signal : (s.setBlock k bs).signal = s.signal := by rw [State.setBlock_eq]
@[simp] theorem State.setBlock_faulted : (s.setBlock k bs).faulted = s.faulted := by rw [State.setBlock_eq]
@[simp] theorem State.setBlock_random : (s.setBlock k bs).random = s.random := by rw [State.setBlock_eq]

end

/-! ### The range check -/

theorem inRange_of_le {a n : Nat} (h : a + n ≤ 4096) : inRange a n = true := (inRange_iff a n).2 (.inr h)

theorem inRange_zero (a : Nat) : inRange a 0 = true := (inRange_iff a 0).2 (.inl rfl)

theorem inRange_eq_false {a n : Nat} (hn : n ≠ 0) (h : 4096 < a + n) : inRange a n = false := by
  rw [Bool.eq_false_iff, Ne, inRange_iff]
  omega

/-! ### Raising -/

/-- The signal that an instruction raises, if it does (60_exceptions.md R242 to R244). -/
def raisedSignal (i : Instr) (s : State) : Signal :=
  match i with
  | .ret => .stackUnderflow s.pc (encode i)
  | .call _ => .stackOverflow s.pc (encode i)
  | _ => outOfBoundsAt s.pc i s.i

theorem raisedSignal_ne_none (i : Instr) (s : State) : raisedSignal i s ≠ .none := by
  cases i <;> exact nofun

/-- In the states of the table of R245 the instruction only raises its signal. -/
theorem exec_of_raises {i : Instr} {s : State} (h : Raises i s) :
    exec i s = .next (s.advance.raise (raisedSignal i s)) := by
  cases i with
  | ret => simp only [exec, execRet, s.advance.pop_of_empty h, raisedSignal]
  | call nnn => simp only [exec, execCall, s.advance.push_of_full _ h, raisedSignal]
  | ldB x =>
    have hr : inRange s.i.toNat (bcdDigits (s.getV x)).length = false :=
      inRange_eq_false (by simp) (Nat.add_le_add_right h 3)
    simp only [exec, execLdB, State.store_of_outOfRange _ hr, raisedSignal]
  | ldMemVx x =>
    have hr : inRange s.i.toNat (s.blockOf x).length = false := by
      rw [length_blockOf]
      exact inRange_eq_false (by omega) (Nat.succ_le_succ h)
    simp only [exec, execLdMemVx, State.store_of_outOfRange _ hr, raisedSignal]
  | ldVxMem x =>
    have hr : inRange s.i.toNat (x.toNat + 1) = false := inRange_eq_false (by omega) (Nat.succ_le_succ h)
    simp only [exec, execLdVxMem, State.load_of_outOfRange _ hr, raisedSignal]
  | drw x y n =>
    obtain ⟨hn, hout⟩ := h
    have hr : inRange s.i.toNat n.toNat = false := inRange_eq_false (by omega) (by omega)
    simp only [exec, execDrw, State.load_of_outOfRange _ hr, raisedSignal]
  | _ => exact h.elim

theorem not_raises_drw_iff {x y n : Nibble} {s : State} :
    ¬ Raises (.drw x y n) s ↔ inRange s.i.toNat n.toNat = true := by
  rw [inRange_iff]
  simp only [Raises]
  omega

/-! ### The instructions that ask first, where they complete -/

section
variable {s : State}

theorem exec_ret_of_succ {k : Nat} (hk : k < 16) (h : s.sp.val = k + 1) :
    exec .ret s = .next { s with pc := s.stk[k], sp := ⟨k, by omega⟩, signal := .none } := by
  have hpos : 0 < s.advance.sp.val := by rw [State.advance_sp]; omega
  simp only [exec, execRet, s.advance.pop_of_pos hpos, State.advance_sp, h]
  rfl

theorem exec_call_of_lt (nnn : Addr12) (h : s.sp.val < 16) :
    exec (.call nnn) s = .next { s with
      pc := addrOf nnn, sp := ⟨s.sp.val + 1, Nat.succ_lt_succ h⟩, stk := s.stk.set s.sp.val (s.pc + 2#16),
      signal := .none } := by
  simp only [exec, execCall, s.advance.push_of_lt _ h]
  rfl

theorem exec_ldB_of_le (x : Nibble) (h : s.i.toNat + 2 ≤ 4095) : exec (.ldB x) s =
    .next { s.advance with mem := Memory.writeList s.mem s.i.toNat (bcdDigits (s.getV x)) } := by
  have hr : inRange s.i.toNat (bcdDigits (s.getV x)).length = true := inRange_of_le (Nat.succ_le_succ h)
  simp only [exec, execLdB, State.store_of_inRange _ hr, State.advance_mem]

theorem exec_ldMemVx_of_le (x : Nibble) (h : s.i.toNat + x.toNat ≤ 4095) : exec (.ldMemVx x) s =
    .next { s.advance with mem := Memory.writeList s.mem s.i.toNat (s.blockOf x) } := by
  have hr : inRange s.i.toNat (s.blockOf x).length = true := by
    rw [length_blockOf]
    exact inRange_of_le (Nat.succ_le_succ h)
  simp only [exec, execLdMemVx, State.store_of_inRange _ hr, State.advance_mem]

theorem exec_ldVxMem_of_le (x : Nibble) (h : s.i.toNat + x.toNat ≤ 4095) : exec (.ldVxMem x) s =
    .next (s.advance.setBlock 0 ((List.range (x.toNat + 1)).map fun k => s.byteAt (s.i.toNat + k))) := by
  have hr : inRange s.i.toNat (x.toNat + 1) = true := inRange_of_le (Nat.succ_le_succ h)
  simp only [exec, execLdVxMem, State.load_of_inRange _ hr]

theorem exec_drw_of_inRange (x y : Nibble) {n : Nibble} (h : inRange s.i.toNat n.toNat = true) :
    exec (.drw x y n) s =
      .next ((s.advance.setFb (drawSprite (s.getV x).toNat (s.getV y).toNat (spriteAt s n) s.fb).1).setV vf
        (flagByte (drawSprite (s.getV x).toNat (s.getV y).toNat (spriteAt s n) s.fb).2)) := by
  simp only [exec, execDrw, State.load_of_inRange _ h, spriteAt]

theorem exec_ldVxK_of_some (x : Nibble) {k : Nibble} (h : s.leastKeyDown = some k) :
    exec (.ldVxK x) s = .next (s.advance.setV x (BitVec.ofNat 8 k.toNat)) := by
  simp only [exec, execLdVxK, h]

theorem exec_ldVxK_of_none (x : Nibble) (h : s.leastKeyDown = none) :
    exec (.ldVxK x) s = .next (s.advance.setPc s.pc) := by
  simp only [exec, execLdVxK, h]

end

/-! ### What an instruction can do -/

/-- What instruction `i` may leave at `s`, by the part of the state that it writes. -/
inductive Effect (s : State) : Instr → State → Prop
  | raised {i} (h : Raises i s) : Effect s i (s.advance.raise (raisedSignal i s))
  | reg {i x} (b : Byte) (hx : destination i = some x) : Effect s i (s.advance.setV x b)
  | regAndFlag {i x} (r : Byte × Byte) (hx : destination i = some x) (hf : flagWriter i = true) :
      Effect s i (s.advance.setResultAndFlag x r)
  | block {x} (bs : List Byte) (hlen : bs.length = x.toNat + 1) :
      Effect s (.ldVxMem x) (s.advance.setBlock 0 bs)
  | random (x : Nibble) (nn b : Byte) : Effect s (.rnd x nn) (s.advance.setV x b).consumeByte
  | clear : Effect s .cls (s.advance.setFb clearFrame)
  | draw (x y n : Nibble) (f : Frame) (b : Byte) : Effect s (.drw x y n) ((s.advance.setFb f).setV vf b)
  | skip (i : Instr) (c : Bool) : Effect s i (s.advance.skipIf c)
  | wait (x : Nibble) : Effect s (.ldVxK x) (s.advance.setPc s.pc)
  | jump (nnn : Addr12) : Effect s (.jp nnn) (s.advance.setPc (addrOf nnn))
  | jumpV0 (nnn : Addr12) : Effect s (.jpV0 nnn) (s.advance.setPc (addrOf nnn + wordOf (s.getV 0#4)))
  | call (nnn : Addr12) (h : s.sp.val < 16) : Effect s (.call nnn) { s with
      pc := addrOf nnn, sp := ⟨s.sp.val + 1, Nat.succ_lt_succ h⟩, stk := s.stk.set s.sp.val (s.pc + 2#16),
      signal := .none }
  | ret (k : Fin 16) : Effect s .ret { s with pc := s.stk[k], sp := k.castSucc, signal := .none }
  | index {i} (a : Word) (hi : (∃ n, i = .ldI n) ∨ (∃ x, i = .addI x) ∨ ∃ x, i = .ldF x) :
      Effect s i (s.advance.setI a)
  | delay (x : Nibble) (b : Byte) : Effect s (.ldDtVx x) (s.advance.setDt b)
  | sound (x : Nibble) (b : Byte) : Effect s (.ldStVx x) (s.advance.setSt b)
  | bytes {i} (bs : List Byte) (hi : (∃ x, i = .ldB x) ∨ ∃ x, i = .ldMemVx x)
      (hlen : s.i.toNat + bs.length ≤ 4096) :
      Effect s i { s.advance with mem := Memory.writeList s.mem s.i.toNat bs }

theorem effect_of_exec {i : Instr} {s t : State} (h : exec i s = .next t) : Effect s i t := by
  by_cases hr : Raises i s
  · rw [exec_of_raises hr] at h
    cases h
    exact .raised hr
  · cases i with
    | ret =>
      have hsp : s.sp.val ≠ 0 := hr
      obtain ⟨k, hk⟩ : ∃ k, s.sp.val = k + 1 := Nat.exists_eq_succ_of_ne_zero hsp
      have hlt : k < 16 := by omega
      rw [exec_ret_of_succ hlt hk] at h
      cases h
      exact .ret ⟨k, hlt⟩
    | call nnn =>
      have hsp : s.sp.val ≠ 16 := hr
      have hlt : s.sp.val < 16 := by omega
      rw [exec_call_of_lt nnn hlt] at h
      cases h
      exact .call nnn hlt
    | ldB x =>
      have hin : ¬ 4094 ≤ s.i.toNat := hr
      have hle : s.i.toNat + 2 ≤ 4095 := by omega
      rw [exec_ldB_of_le x hle] at h
      cases h
      exact .bytes _ (.inl ⟨x, rfl⟩) (by rw [length_bcdDigits]; omega)
    | ldMemVx x =>
      have hle : s.i.toNat + x.toNat ≤ 4095 := Nat.le_of_lt_succ (Nat.not_le.1 hr)
      rw [exec_ldMemVx_of_le x hle] at h
      cases h
      exact .bytes _ (.inr ⟨x, rfl⟩) (by rw [length_blockOf]; omega)
    | ldVxMem x =>
      have hle : s.i.toNat + x.toNat ≤ 4095 := Nat.le_of_lt_succ (Nat.not_le.1 hr)
      rw [exec_ldVxMem_of_le x hle] at h
      cases h
      exact .block _ (by simp)
    | drw x y n =>
      rw [exec_drw_of_inRange x y (not_raises_drw_iff.1 hr)] at h
      cases h
      exact .draw x y n _ _
    | ldVxK x =>
      cases hk : s.leastKeyDown with
      | some k =>
        rw [exec_ldVxK_of_some x hk] at h
        cases h
        exact .reg _ rfl
      | none =>
        rw [exec_ldVxK_of_none x hk] at h
        cases h
        exact .wait x
    | cls => cases h; exact .clear
    | jp nnn => cases h; exact .jump nnn
    | jpV0 nnn => cases h; exact .jumpV0 nnn
    | seImm | sneImm | seReg | sneReg | skp | sknp => cases h; exact .skip _ _
    | ldImm | addImm | ldReg | or | and | xor | ldVxDt => cases h; exact .reg _ rfl
    | addReg | sub | shr | subn | shl => cases h; exact .regAndFlag _ rfl rfl
    | rnd x nn => cases h; exact .random x nn _
    | ldI n => cases h; exact .index _ (.inl ⟨n, rfl⟩)
    | addI x => cases h; exact .index _ (.inr (.inl ⟨x, rfl⟩))
    | ldF x => cases h; exact .index _ (.inr (.inr ⟨x, rfl⟩))
    | ldDtVx x => cases h; exact .delay x _
    | ldStVx x => cases h; exact .sound x _

end Sys2Proof.Machine
end

section
/-! PROOFS. The step cycle and the invariants: which part of the state an instruction or a step may write, when it
signals, and what every step keeps. -/
namespace Sys2Proof.Machine

/-! ### Who writes what -/

section
variable {s t : State} {i : Instr}

theorem Effect.getV_eq (h : Effect s i t) {r : Nibble} (hr : ¬ mayWrite i r) : t.getV r = s.getV r := by
  have hdest : destination i ≠ some r := fun e => hr (.inl e)
  have hflag : flagWriter i = true → r ≠ vf := fun hf e => hr (.inr (.inl ⟨hf, e⟩))
  cases h with
  | reg b hx =>
    have hne : r ≠ _ := fun e => hdest (e ▸ hx)
    simp [State.getV_setV, hne]
  | regAndFlag p hx hf =>
    have hne : r ≠ _ := fun e => hdest (e ▸ hx)
    simp [State.setResultAndFlag_getV, hne, hflag hf]
  | @block x bs hlen =>
    have hgt : ¬ r.toNat ≤ x.toNat := fun e => hr (.inr (.inr ⟨x, rfl, e⟩))
    rw [State.setBlock_getV _ bs 0 (by omega), dif_neg (by omega), State.advance_getV]
  | random x nn b =>
    have hne : r ≠ x := fun e => hdest (e ▸ rfl)
    simp [State.getV_setV, hne]
  | draw => simp [State.getV_setV, hflag rfl]
  | skip => simp
  | _ => rfl

/-- VF is within reach of a flag writer, of an instruction whose x is 15, and of no other: a block load that reaches it
has x = 15. -/
theorem mayWrite_vf_iff : mayWrite i vf ↔ flagWriter i = true ∨ destination i = some vf := by
  constructor
  · rintro (hd | ⟨hf, -⟩ | ⟨x, rfl, hx⟩)
    · exact .inr hd
    · exact .inl hf
    · have hx15 : x.toNat = 15 := by
        have hlt := x.isLt
        have hge : 15 ≤ x.toNat := hx
        omega
      exact .inr (congrArg some (BitVec.eq_of_toNat_eq hx15))
  · rintro (hf | hd)
    · exact .inr (.inl ⟨hf, rfl⟩)
    · exact .inl hd

theorem Effect.key_eq (h : Effect s i t) : t.key = s.key := by
  cases h with
  | skip | block => simp
  | _ => rfl

theorem Effect.mem_eq (h : Effect s i t) (hb : ∀ x, i ≠ .ldB x) (hm : ∀ x, i ≠ .ldMemVx x) : t.mem = s.mem := by
  cases h with
  | bytes bs hi =>
    obtain ⟨x, rfl⟩ | ⟨x, rfl⟩ := hi
    · exact absurd rfl (hb x)
    · exact absurd rfl (hm x)
  | skip | block => simp
  | _ => rfl

theorem Effect.sameStack (h : Effect s i t) (hc : ∀ n, i ≠ .call n) (hr : i ≠ .ret) : SameStack s t := by
  cases h with
  | call nnn => exact absurd rfl (hc nnn)
  | ret => exact absurd rfl hr
  | skip | block => simp [SameStack]
  | _ => exact ⟨rfl, rfl⟩

theorem Effect.i_eq (h : Effect s i t) (hl : ∀ n, i ≠ .ldI n) (ha : ∀ x, i ≠ .addI x) (hf : ∀ x, i ≠ .ldF x) :
    t.i = s.i := by
  cases h with
  | index a hi =>
    obtain ⟨n, rfl⟩ | ⟨x, rfl⟩ | ⟨x, rfl⟩ := hi
    · exact absurd rfl (hl n)
    · exact absurd rfl (ha x)
    · exact absurd rfl (hf x)
  | skip | block => simp
  | _ => rfl

theorem Effect.dt_eq (h : Effect s i t) (hd : ∀ x, i ≠ .ldDtVx x) : t.dt = s.dt := by
  cases h with
  | delay x => exact absurd rfl (hd x)
  | skip | block => simp
  | _ => rfl

theorem Effect.st_eq (h : Effect s i t) (hs : ∀ x, i ≠ .ldStVx x) : t.st = s.st := by
  cases h with
  | sound x => exact absurd rfl (hs x)
  | skip | block => simp
  | _ => rfl

theorem Effect.fb_eq (h : Effect s i t) (hc : i ≠ .cls) (hd : ∀ x y n, i ≠ .drw x y n) : t.fb = s.fb := by
  cases h with
  | clear => exact absurd rfl hc
  | draw x y n => exact absurd rfl (hd x y n)
  | skip | block => simp
  | _ => rfl

theorem Effect.random_eq (h : Effect s i t) (hr : ∀ x nn, i ≠ .rnd x nn) : t.random = s.random := by
  cases h with
  | random x nn => exact absurd rfl (hr x nn)
  | skip | block => simp
  | _ => rfl

end

/-- Settles O16: part by part, from the one inversion of `exec`. -/
theorem onlyTheNamedInstructionsWrite : Obligations.OnlyTheNamedInstructionsWrite := by
  unfold Obligations.OnlyTheNamedInstructionsWrite
  intro i s t h
  have he := effect_of_exec h
  refine ⟨fun r => he.getV_eq, fun hne => ?_, he.key_eq, he.mem_eq, he.sameStack, he.i_eq, he.dt_eq, he.st_eq,
    he.fb_eq, he.random_eq⟩
  exact mayWrite_vf_iff.1 (by_contra fun hno => hne (he.getV_eq hno))

/-! ### Signals -/

section
variable {s t : State} {i : Instr}

/-- An instruction raises its signal and does nothing else, or completes with signal `none` and the mark as it was. -/
theorem Effect.signal_cases (h : Effect s i t) :
    (Raises i s ∧ t = s.advance.raise (raisedSignal i s)) ∨ (t.signal = .none ∧ t.faulted = s.faulted) := by
  cases h with
  | raised h => exact .inl ⟨h, rfl⟩
  | skip | block => simp
  | _ => exact .inr ⟨rfl, rfl⟩

/-- The three ways of a step (40_step_cycle.md R121, R125, R123). -/
theorem step_cases (h : step s = .next t) :
    (4095 ≤ s.pc.toNat ∧ t = s.fetchFailed) ∨
    (s.pc.toNat ≤ 4094 ∧ ∃ w, s.fetch = some w ∧
      (decodeWord w = none ∧ t = s.unknownWord w ∨ ∃ i, decodeWord w = some i ∧ exec i s = .next t)) := by
  rcases Nat.lt_or_ge 4094 s.pc.toNat with hpc | hpc
  · rw [step_of_fetch_none (s.fetch_of_ge hpc)] at h
    cases h
    exact .inl ⟨hpc, rfl⟩
  · have hf := s.fetch_of_le hpc
    refine .inr ⟨hpc, _, hf, ?_⟩
    cases hd : decodeWord (wordOfBytes (s.byteAt s.pc.toNat) (s.byteAt (s.pc.toNat + 1))) with
    | none =>
      rw [step_of_decode_none hf hd] at h
      cases h
      exact .inl ⟨rfl, rfl⟩
    | some i => exact .inr ⟨i, rfl, step_of_decode_some hf hd ▸ h⟩

end

/-- Settles O7: in the states of the table the instruction raises, and it completes in every other. -/
theorem signalsAreExactlyTheTable : Obligations.SignalsAreExactlyTheTable := by
  unfold Obligations.SignalsAreExactlyTheTable
  intro i s t h
  by_cases hr : Raises i s
  · rw [exec_of_raises hr] at h
    cases h
    exact iff_of_true (raisedSignal_ne_none i s) hr
  · obtain ⟨h', -⟩ | ⟨hnone, -⟩ := (effect_of_exec h).signal_cases
    · exact absurd h' hr
    · exact iff_of_false (not_not_intro hnone) hr

/-- A step signals by changing PC alone, from `pc0` as the phase says, and setting the mark; a step that does not signal
leaves the mark. -/
theorem step_signal_cases {s t : State} (h : step s = .next t) :
    (t.signal ≠ .none ∧ t = { s with pc := t.pc, signal := t.signal, faulted := true } ∧
      ((s.pc.toNat ≤ 4094 ∧ t.pc = s.pc + 2#16) ∨ (4095 ≤ s.pc.toNat ∧ t.pc = s.pc))) ∨
    (t.signal = .none ∧ t.faulted = s.faulted) := by
  obtain ⟨hpc, rfl⟩ | ⟨hpc, w, -, ⟨-, rfl⟩ | ⟨i, -, he⟩⟩ := step_cases h
  · exact .inl ⟨nofun, rfl, .inr ⟨hpc, rfl⟩⟩
  · exact .inl ⟨nofun, rfl, .inl ⟨hpc, rfl⟩⟩
  · obtain ⟨-, rfl⟩ | hnone := (effect_of_exec he).signal_cases
    · exact .inl ⟨raisedSignal_ne_none i s, rfl, .inl ⟨hpc, rfl⟩⟩
    · exact .inr hnone

/-- Settles O6: both clauses are read off the two ways a step ends. -/
theorem signalledStepChangesOnlyPcAndMarks : Obligations.SignalledStepChangesOnlyPcAndMarks := by
  unfold Obligations.SignalledStepChangesOnlyPcAndMarks
  refine ⟨fun s t h hsig => ?_, fun s t h => ?_⟩
  · obtain ⟨-, hchange⟩ | ⟨hnone, -⟩ := step_signal_cases h
    · exact hchange
    · exact absurd hnone hsig
  · obtain ⟨hsig, ht, -⟩ | ⟨hnone, hmark⟩ := step_signal_cases h
    · have hset : t.faulted = true := by rw [ht]
      exact iff_of_true hset (.inr hsig)
    · simp [hnone, hmark]

/-- An instruction that raises has no ignored field, so its word is the fetched one (log 24). -/
theorem encode_eq_of_raises {w : Word} {i : Instr} {s : State} (hd : decodeWord w = some i) (hr : Raises i s) :
    encode i = w := by
  obtain heq | ⟨x, rfl | rfl, -⟩ := encodeOfDecode w i hd
  · exact heq
  · exact hr.elim
  · exact hr.elim

/-- Settles O8: an unknown word is carried as it was fetched, and a raising instruction carries its own. -/
theorem signalCarriesFetchedWord : Obligations.SignalCarriesFetchedWord := by
  unfold Obligations.SignalCarriesFetchedWord
  intro s t w hf h
  obtain ⟨hpc, -⟩ | ⟨-, w', hf', hw⟩ := step_cases h
  · rw [s.fetch_of_ge hpc] at hf
    cases hf
  · obtain rfl : w = w' := Option.some.inj (hf.symm.trans hf')
    obtain ⟨-, rfl⟩ | ⟨i, hd, he⟩ := hw
    · exact .inr (.inl rfl)
    · obtain ⟨hr, rfl⟩ | ⟨hnone, -⟩ := (effect_of_exec he).signal_cases
      · rw [State.raise_signal, ← encode_eq_of_raises hd hr]
        cases i with
        | ret => exact .inr (.inr (.inr (.inl rfl)))
        | call => exact .inr (.inr (.inl rfl))
        | _ => exact .inr (.inr (.inr (.inr rfl)))
      · exact .inl hnone

/-- Settles O4: the fetch answers nothing there, and the step is `fetchFailed`. -/
theorem fetchOutOfBoundsChangesNothing : Obligations.FetchOutOfBoundsChangesNothing := by
  unfold Obligations.FetchOutOfBoundsChangesNothing
  exact fun s hpc => step_of_fetch_none (s.fetch_of_ge hpc)

/-! ### Where PC and the return addresses come from -/

theorem toNat_addrOf_add_wordOf (nnn : Addr12) (b : Byte) :
    (addrOf nnn + wordOf b).toNat = nnn.toNat + b.toNat := by
  have hn : nnn.toNat < 4096 := nnn.isLt
  have hb : b.toNat < 256 := b.isLt
  rw [BitVec.toNat_add, toNat_addrOf, toNat_wordOf]
  omega

theorem toNat_add_le_add (a b : Word) : (a + b).toNat ≤ a.toNat + b.toNat := by
  rw [BitVec.toNat_add]
  exact Nat.mod_le _ _

theorem even_toNat_add {a b : Word} (ha : a.toNat % 2 = 0) (hb : b.toNat % 2 = 0) : (a + b).toNat % 2 = 0 := by
  rw [BitVec.toNat_add]
  omega

section
variable {s t : State} {i : Instr}

theorem Effect.pc_cases (h : Effect s i t) :
    t.pc = s.pc ∨ t.pc = s.pc + 2#16 ∨ t.pc = s.pc + 4#16 ∨
    (∃ nnn, (i = .jp nnn ∨ i = .call nnn) ∧ t.pc = addrOf nnn) ∨
    (∃ nnn, i = .jpV0 nnn ∧ t.pc = addrOf nnn + wordOf (s.getV 0#4)) ∨
    ∃ k : Fin 16, t.pc = s.stk[k] := by
  cases h with
  | skip i c =>
    rw [State.advance_skipIf_pc]
    cases c
    · exact .inr (.inl rfl)
    · exact .inr (.inr (.inl rfl))
  | wait x => exact .inl rfl
  | jump nnn => exact .inr (.inr (.inr (.inl ⟨nnn, .inl rfl, rfl⟩)))
  | call nnn => exact .inr (.inr (.inr (.inl ⟨nnn, .inr rfl, rfl⟩)))
  | jumpV0 nnn => exact .inr (.inr (.inr (.inr (.inl ⟨nnn, rfl, rfl⟩))))
  | ret k => exact .inr (.inr (.inr (.inr (.inr ⟨k, rfl⟩))))
  | block => exact .inr (.inl (State.setBlock_pc _ _ _))
  | _ => exact .inr (.inl rfl)

/-- A slot of the stack keeps its value or gets the address after the instruction. -/
theorem Effect.stk_cases (h : Effect s i t) (k : Fin 16) : t.stk[k] = s.stk[k] ∨ t.stk[k] = s.pc + 2#16 := by
  cases h with
  | call nnn hlt =>
    by_cases hk : s.sp.val = k.val <;> simp [hk]
  | skip | block => simp
  | _ => exact .inl rfl

theorem Effect.mem_wf (h : Effect s i t) (hw : Memory.wf s.mem = true) : Memory.wf t.mem = true := by
  cases h with
  | bytes bs hi hlen => exact Memory.wf_writeList hlen hw
  | skip | block => simpa
  | _ => exact hw

/-- Below the top of memory an instruction keeps the invariant: the address after it is at most 4096, after a skip 4098,
a target at most 4095, with V0 added 0x10FE. -/
theorem Effect.stateInv (h : Effect s i t) (hs : StateInv s) (hpc : s.pc.toNat ≤ 4094) : StateInv t := by
  obtain ⟨hw, -, hstk⟩ := hs
  have h2 : (s.pc + 2#16).toNat ≤ s.pc.toNat + 2 := toNat_add_le_add _ _
  have h4 : (s.pc + 4#16).toNat ≤ s.pc.toNat + 4 := toNat_add_le_add _ _
  refine ⟨h.mem_wf hw, ?_, fun k => ?_⟩
  · obtain e | e | e | ⟨nnn, -, e⟩ | ⟨nnn, -, e⟩ | ⟨k, e⟩ := h.pc_cases
    · rw [e]; omega
    · rw [e]; omega
    · rw [e]; omega
    · have hn : nnn.toNat < 4096 := nnn.isLt
      rw [e, toNat_addrOf]; omega
    · have hn : nnn.toNat < 4096 := nnn.isLt
      have hb : (s.getV 0#4).toNat < 256 := (s.getV 0#4).isLt
      rw [e, toNat_addrOf_add_wordOf]; omega
    · have hk := hstk k
      rw [e]; omega
  · obtain e | e := h.stk_cases k
    · rw [e]; exact hstk k
    · rw [e]; omega

theorem Effect.evenPc (h : Effect s i t) (hs : EvenPc s) (ht : transferEven i s = true) : EvenPc t := by
  obtain ⟨hpc, hstk⟩ := hs
  refine ⟨?_, fun k => ?_⟩
  · obtain e | e | e | ⟨nnn, rfl | rfl, e⟩ | ⟨nnn, rfl, e⟩ | ⟨k, e⟩ := h.pc_cases
    · rw [e]; exact hpc
    · rw [e]; exact even_toNat_add hpc rfl
    · rw [e]; exact even_toNat_add hpc rfl
    · rw [e, toNat_addrOf]; simpa [transferEven] using ht
    · rw [e, toNat_addrOf]; simpa [transferEven] using ht
    · rw [e, toNat_addrOf_add_wordOf]; simpa [transferEven] using ht
    · rw [e]; exact hstk k
  · obtain e | e := h.stk_cases k
    · rw [e]; exact hstk k
    · rw [e]; exact even_toNat_add hpc rfl

end

/-! ### What every step keeps -/

/-- Settles O11: a failed fetch moves nothing, an unknown word advances PC from below the top of memory, and so does
an instruction, unless it jumps or returns to an address the invariant bounds. -/
theorem stepKeepsInvariant : Obligations.StepKeepsInvariant := by
  unfold Obligations.StepKeepsInvariant
  intro s t hs h
  obtain ⟨-, rfl⟩ | ⟨hpc, w, -, ⟨-, rfl⟩ | ⟨i, -, he⟩⟩ := step_cases h
  · exact hs
  · obtain ⟨hw, -, hstk⟩ := hs
    have h2 : (s.unknownWord w).pc.toNat ≤ s.pc.toNat + 2 := toNat_add_le_add _ _
    exact ⟨hw, by omega, hstk⟩
  · exact (effect_of_exec he).stateInv hs hpc

/-- Settles O14: PC moves by 0, 2 or 4, to an even target, or to a return address, which are even. -/
theorem evenTargetsKeepPcEven : Obligations.EvenTargetsKeepPcEven := by
  unfold Obligations.EvenTargetsKeepPcEven
  intro s t hs htarget h
  obtain ⟨-, rfl⟩ | ⟨-, w, hf, ⟨-, rfl⟩ | ⟨i, hd, he⟩⟩ := step_cases h
  · exact hs
  · obtain ⟨hpc, hstk⟩ := hs
    exact ⟨even_toNat_add hpc rfl, hstk⟩
  · exact (effect_of_exec he).evenPc hs (htarget w i hf hd)

/-! ### The reset state -/

/-- Settles O9: each field of the reset state by its definition, the 80 font bytes and the zeroes above them by
`initialByte`. -/
theorem resetState : Obligations.ResetState := by
  unfold Obligations.ResetState
  refine ⟨by decide, rfl, rfl, rfl, by decide, rfl, rfl, fun r c => ?_, by decide, fun a ha => ?_, fun a ha _ => ?_⟩
  · exact cellAt_clearFrame r c
  · exact if_pos ha
  · exact if_neg (Nat.not_lt.2 ha)

theorem stateInv_reset : StateInv State.reset := ⟨rfl, by decide, by decide⟩

/-- Settles O10: closed facts about the reset state. -/
theorem resetMeetsInvariant : Obligations.ResetMeetsInvariant := by
  unfold Obligations.ResetMeetsInvariant
  exact ⟨stateInv_reset, by decide, by decide⟩

end Sys2Proof.Machine
end

section
/-! PROOFS. The family of 41_control_flow.md: CLS, the two ends of the stack, CALL and RET, and the jumps. -/
namespace Sys2Proof.Machine

/-! ### CLS (R140) -/

theorem litCells_clearFrame : litCells clearFrame = 0 := by simp [litCells]

/-- Settles O23: CLS puts the clear display in place of the old one. -/
theorem clsTurnsEveryCellOff : Obligations.ClsTurnsEveryCellOff := by
  unfold Obligations.ClsTurnsEveryCellOff
  exact fun s => ⟨_, rfl, cellAt_clearFrame, litCells_clearFrame, rfl⟩

/-! ### The stack (R141, R143) -/

/-- An instruction that raises, told by the signal it raises. -/
theorem exec_raisedOnly {i : Instr} {s : State} {g : Signal} (h : Raises i s) (hg : raisedSignal i s = g) :
    ∃ t, exec i s = .next t ∧ RaisedOnly g s t := ⟨_, exec_of_raises h, by subst hg; rfl⟩

/-- Settles O24: RET with `k + 1` addresses held reads slot `k`. -/
theorem retPopsTheReturnAddress : Obligations.RetPopsTheReturnAddress := by
  unfold Obligations.RetPopsTheReturnAddress
  exact fun s k hk h => ⟨_, exec_ret_of_succ hk h, rfl, rfl, rfl⟩

/-- Settles O26: CALL with `k` addresses held writes slot `k`. -/
theorem callPushesAndJumps : Obligations.CallPushesAndJumps := by
  unfold Obligations.CallPushesAndJumps
  rintro nnn s k hk rfl
  refine ⟨_, exec_call_of_lt nnn hk, toNat_addrOf nnn, rfl, ?_, fun j hj hne => ?_, rfl⟩
  · exact Vector.getElem_set_self hk
  · exact Vector.getElem_set_ne hk hj hne.symm

/-- Settles O27: the two states are those of the table of R245, and the words are the encodings of RET and CALL. -/
theorem stackEndsOnlySignal : Obligations.StackEndsOnlySignal := by
  unfold Obligations.StackEndsOnlySignal
  exact ⟨fun s h => exec_raisedOnly (i := .ret) h rfl, fun nnn s h => exec_raisedOnly (i := .call nnn) h rfl⟩

/-- Settles O28: the RET finds the pointer one above the slot that the CALL wrote, and that slot holds the address after
the CALL. -/
theorem callThenRetComesBack : Obligations.CallThenRetComesBack := by
  unfold Obligations.CallThenRetComesBack
  rintro nnn s t u k hk rfl hcall hsp hslot
  rw [exec_call_of_lt nnn hk] at hcall
  cases hcall
  have husp : u.sp.val = s.sp.val + 1 := by rw [hsp]
  refine ⟨_, exec_ret_of_succ hk husp, ?_, rfl⟩
  rw [hslot]
  exact Vector.getElem_set_self hk

/-! ### Jumps (R142, R144) -/

theorem State.onlyRegs_advance_setPc (s : State) (a : Word) : OnlyRegs [] s (s.advance.setPc a) := by
  simp [OnlyRegs, SameRegsBut, SameStack, SameTimers, SameMem]

theorem run_succ_of_next {M : Host.Core} {s t : M.State} (h : M.step s = .next t) (n : Nat) :
    M.run (n + 1) s = M.run n t := by
  rw [Host.Core.run, h]

/-- A step that leads to a state in which the step changes nothing leads there in any positive number of steps. -/
theorem run_of_step_fixed {s t : State} (hs : step s = .next t) (ht : step t = .next t) (n : Nat) :
    Sys2Proof.core.run (n + 1) s = .next t := by
  have hstay : ∀ k, Sys2Proof.core.run k t = .next t := by
    intro k
    induction k with
    | zero => rfl
    | succ k ih => exact (run_succ_of_next ht k).trans ih
  exact (run_succ_of_next hs n).trans (hstay n)

/-- At a JP to its own address a step changes nothing but the signal (R232). -/
theorem step_of_atSelfJump {s : State} (h : s.atSelfJump = true) : step s = .next { s with signal := .none } := by
  obtain ⟨w, nnn, hf, hd, hpc⟩ := s.atSelfJump_iff.1 h
  have hself : addrOf nnn = s.pc := BitVec.eq_of_toNat_eq ((toNat_addrOf nnn).trans hpc.symm)
  rw [step_of_decode_some hf hd]
  show Host.Outcome.next (s.advance.setPc (addrOf nnn)) = _
  rw [hself]
  rfl

/-- Settles O25: both jumps write PC alone; 4095 + 255 is below 65536, so the sum does not wrap; and a step at a
self-jump ends at the same self-jump. -/
theorem jumpsSetPc : Obligations.JumpsSetPc := by
  unfold Obligations.JumpsSetPc
  refine ⟨fun nnn s => ⟨_, rfl, toNat_addrOf nnn, s.onlyRegs_advance_setPc _⟩,
    fun nnn s => ⟨_, rfl, toNat_addrOf_add_wordOf nnn (s.getV 0#4), s.onlyRegs_advance_setPc _⟩, fun s n h => ?_⟩
  have hagain : State.atSelfJump { s with signal := .none } = true := h
  exact run_of_step_fixed (step_of_atSelfJump h) (step_of_atSelfJump hagain) n

end Sys2Proof.Machine
end

section
/-! PROOFS. The rest of the families of 43_register_alu.md, 44_memory_index.md section 2 and 45_timers.md: one written
register, with or without a flag, and one written index or timer. -/
namespace Sys2Proof.Machine

/-! ### One register, no flag -/

/-- Settles O30: LD Vx, nn writes the immediate to Vx. -/
theorem ldImmLoadsImmediate : Obligations.LdImmLoadsImmediate := by
  unfold Obligations.LdImmLoadsImmediate
  exact fun x nn s => exec_writesReg rfl

/-- An instruction that writes `b` to register `x`, bit by bit. -/
theorem exec_writesReg_bits {i : Instr} {s : State} {x : Nibble} {b : Byte} {bit : Nat → Bool}
    (he : exec i s = .next (s.advance.setV x b)) (hb : ∀ k, b.getLsbD k = bit k) :
    ∃ t, exec i s = .next t ∧ t.pc = s.pc + 2#16 ∧ OnlyRegs [x] s t ∧ ∀ k, (t.getV x).getLsbD k = bit k := by
  obtain ⟨t, ht, hx, hpc, honly⟩ := exec_writesReg he
  exact ⟨t, ht, hpc, honly, fun k => by rw [hx, hb k]⟩

/-- Settles O33: the three operations of bit vectors are bitwise. -/
theorem logicIsBitwiseWithoutFlag : Obligations.LogicIsBitwiseWithoutFlag := by
  unfold Obligations.LogicIsBitwiseWithoutFlag
  exact ⟨fun x y s => exec_writesReg_bits rfl fun _ => BitVec.getLsbD_or,
    fun x y s => exec_writesReg_bits rfl fun _ => BitVec.getLsbD_and,
    fun x y s => exec_writesReg_bits rfl fun _ => BitVec.getLsbD_xor⟩

/-! ### A register and the flag (R159) -/

theorem State.onlyRegs_advance_setResultAndFlag (s : State) (x : Nibble) (r : Byte × Byte) :
    OnlyRegs [x, vf] s (s.advance.setResultAndFlag x r) := by
  refine ⟨fun y hy => ?_, rfl, ⟨rfl, rfl⟩, ⟨rfl, rfl⟩, rfl, rfl, fun _ => rfl, rfl, rfl, rfl⟩
  obtain ⟨hx, hvf⟩ : y ≠ x ∧ y ≠ vf := by simpa using hy
  rw [State.setResultAndFlag_getV, if_neg hvf, if_neg hx, State.advance_getV]

/-- An instruction that advances and then writes a result to `x` and a flag to VF: VF holds the flag, and `x` the result
unless it is VF itself (D7, log 15). -/
theorem exec_writesRegAndFlag {i : Instr} {s : State} {x : Nibble} {r : Byte × Byte}
    (he : exec i s = .next (s.advance.setResultAndFlag x r)) :
    ∃ t, exec i s = .next t ∧ t.pc = s.pc + 2#16 ∧ OnlyRegs [x, vf] s t ∧ t.getV vf = r.2 ∧
      (x ≠ vf → t.getV x = r.1) := by
  refine ⟨_, he, rfl, s.onlyRegs_advance_setResultAndFlag x r, ?_, fun hx => ?_⟩
  · rw [State.setResultAndFlag_getV, if_pos rfl]
  · rw [State.setResultAndFlag_getV, if_neg hx, if_pos rfl]

theorem toNat_flagByte_le (c : Bool) : (flagByte c).toNat ≤ 1 := by cases c <;> decide

theorem addWithCarry_snd (a b : Byte) :
    (addWithCarry a b).2 = if 255 < a.toNat + b.toNat then 1#8 else 0#8 := by
  simp [addWithCarry, flagByte]

theorem subNoBorrow_snd (a b : Byte) : (subNoBorrow a b).2 = if b.toNat ≤ a.toNat then 1#8 else 0#8 := by
  simp [subNoBorrow, flagByte]

/-- Settles O34: the flag is the carry, and the pair is the exact sum. -/
theorem addRegSumAndCarry : Obligations.AddRegSumAndCarry := by
  unfold Obligations.AddRegSumAndCarry
  intro x y s
  obtain ⟨t, he, hpc, honly, hvf, hx⟩ := exec_writesRegAndFlag (i := .addReg x y) (s := s) rfl
  refine ⟨t, he, hpc, honly, hvf.trans (addWithCarry_snd _ _), fun hne => ?_⟩
  rw [hvf, hx hne]
  exact addWithCarry_exact _ _

/-- An instruction that writes the difference `a - b` and its flag. -/
theorem exec_subtracts {i : Instr} {s : State} {x : Nibble} {a b : Byte}
    (he : exec i s = .next (s.advance.setResultAndFlag x (subNoBorrow a b))) :
    ∃ t, exec i s = .next t ∧ t.pc = s.pc + 2#16 ∧ OnlyRegs [x, vf] s t ∧
      (t.getV vf = if b.toNat ≤ a.toNat then 1#8 else 0#8) ∧
      (x ≠ vf → (t.getV x).toNat + b.toNat + 256 * (t.getV vf).toNat = a.toNat + 256) := by
  obtain ⟨t, he, hpc, honly, hvf, hx⟩ := exec_writesRegAndFlag he
  refine ⟨t, he, hpc, honly, hvf.trans (subNoBorrow_snd a b), fun hne => ?_⟩
  rw [hvf, hx hne]
  exact subNoBorrow_exact a b

/-- Settles O35: SUB and SUBN are one subtraction with its operands in either order. -/
theorem subtractsDifferenceAndNoBorrow : Obligations.SubtractsDifferenceAndNoBorrow := by
  unfold Obligations.SubtractsDifferenceAndNoBorrow
  exact ⟨fun x y s => exec_subtracts rfl, fun x y s => exec_subtracts rfl⟩

/-- Settles O36: the pair is the exact value, and the flag is 0 or 1, so it is the remainder of the halving or the
quotient of the doubling. -/
theorem shiftsByOneIntoFlag : Obligations.ShiftsByOneIntoFlag := by
  unfold Obligations.ShiftsByOneIntoFlag
  refine ⟨fun x s => ?_, fun x s => ?_⟩
  · obtain ⟨t, he, hpc, honly, hvf, hx⟩ := exec_writesRegAndFlag (i := .shr x) (s := s) rfl
    have hexact := shiftRightOne_exact (s.getV x)
    have hflag : (shiftRightOne (s.getV x)).2.toNat ≤ 1 := toNat_flagByte_le _
    refine ⟨t, he, hpc, honly, ?_, fun hne => ?_⟩
    · rw [hvf]; omega
    · rw [hvf, hx hne]; exact hexact
  · obtain ⟨t, he, hpc, honly, hvf, hx⟩ := exec_writesRegAndFlag (i := .shl x) (s := s) rfl
    have hexact := shiftLeftOne_exact (s.getV x)
    have hlt : (shiftLeftOne (s.getV x)).1.toNat < 256 := (shiftLeftOne (s.getV x)).1.isLt
    refine ⟨t, he, hpc, honly, ?_, fun hne => ?_⟩
    · rw [hvf]; omega
    · rw [hvf, hx hne]; exact hexact

/-- An instruction that writes 0 or 1 as its flag leaves it in VF. -/
theorem getV_vf_of_writesRegAndFlag {i : Instr} {s t : State} {x : Nibble} {r : Byte × Byte}
    (hr : r.2 = 0#8 ∨ r.2 = 1#8) (he : exec i s = .next (s.advance.setResultAndFlag x r))
    (h : exec i s = .next t) : t.getV vf = 0#8 ∨ t.getV vf = 1#8 := by
  obtain ⟨t', ht', -, -, hvf, -⟩ := exec_writesRegAndFlag he
  obtain rfl : t = t' := Host.Outcome.next.inj (h.symm.trans ht')
  rwa [hvf]

/-- Settles O37: the five write a flag byte in every state, and DRW does where it does not signal. -/
theorem flagWritersLeaveZeroOrOne : Obligations.FlagWritersLeaveZeroOrOne := by
  unfold Obligations.FlagWritersLeaveZeroOrOne
  rintro i s t h hsig (⟨x, y, rfl | rfl | rfl⟩ | ⟨x, rfl | rfl⟩ | ⟨x, y, n, rfl⟩)
  · exact getV_vf_of_writesRegAndFlag (flagByte_cases _) rfl h
  · exact getV_vf_of_writesRegAndFlag (flagByte_cases _) rfl h
  · exact getV_vf_of_writesRegAndFlag (flagByte_cases _) rfl h
  · exact getV_vf_of_writesRegAndFlag (flagByte_cases _) rfl h
  · exact getV_vf_of_writesRegAndFlag (flagByte_cases _) rfl h
  · have hr : ¬ Raises (.drw x y n) s := fun hr => (signalsAreExactlyTheTable _ s t h).2 hr hsig
    rw [exec_drw_of_inRange x y (not_raises_drw_iff.1 hr)] at h
    cases h
    rw [State.getV_setV_self]
    exact flagByte_cases _

/-! ### I and the timers -/

/-- Settles O39: ADD I writes the 16-bit sum to I, LD F five times the low nibble. -/
theorem indexArithmetic : Obligations.IndexArithmetic := by
  unfold Obligations.IndexArithmetic
  refine ⟨fun x s => ?_, fun x s => ?_⟩
  · obtain ⟨t, he, hi, ht⟩ := exec_writesI (i := .addI x) (s := s) rfl
    exact ⟨t, he, by rw [hi, BitVec.toNat_add, toNat_wordOf], ht⟩
  · obtain ⟨t, he, hi, ht⟩ := exec_writesI (i := .ldF x) (s := s) rfl
    have hi5 : t.i.toNat = 5 * ((s.getV x).toNat % 16) := by rw [hi, toNat_glyphAddr, toNat_lowNibble]
    exact ⟨t, he, hi5, by omega, ht⟩

/-- Settles O46: LD Vx, DT writes a register and LD ST, Vx the sound timer. -/
theorem timerCopies : Obligations.TimerCopies := by
  unfold Obligations.TimerCopies
  exact ⟨fun x s => exec_writesReg rfl, fun x s => ⟨_, rfl, rfl, rfl⟩⟩

end Sys2Proof.Machine
end

section
/-! PROOFS. The family of 46_input.md: the two key skips, and LD Vx, K by the search for the least key down. -/
namespace Sys2Proof.Machine

/-! ### SKP and SKNP (R196, R197) -/

/-- A key is the one that the low nibble of a register names when it has that number. -/
theorem eq_lowNibble_of_toNat {k : Nibble} {b : Byte} (h : k.toNat = b.toNat % 16) : k = lowNibble b :=
  BitVec.eq_of_toNat_eq (h.trans (toNat_lowNibble b).symm)

/-- Settles O48: both skip on the key that the low nibble names, SKNP on its negation. -/
theorem keySkips : Obligations.KeySkips := by
  unfold Obligations.KeySkips
  refine ⟨fun x s => ?_, fun x s => ?_⟩
  · obtain ⟨t, he, honly, hpc⟩ := exec_skips (i := .skp x) (s := s) rfl Iff.rfl
    exact ⟨t, he, honly, fun k hk => by rw [eq_lowNibble_of_toNat hk, hpc]⟩
  · obtain ⟨t, he, honly, hpc⟩ := exec_skips (i := .sknp x) (s := s) rfl (Iff.of_eq (Bool.not_eq_true' _))
    exact ⟨t, he, honly, fun k hk => by rw [eq_lowNibble_of_toNat hk, hpc]⟩

/-! ### LD Vx, K (R198) -/

/-- A key that is down while every lesser one is up is the one the search finds. -/
theorem State.leastKeyDown_of_least {s : State} {k : Nibble} (hk : s.keyDown? k = true)
    (hless : ∀ j : Nibble, j.toNat < k.toNat → s.keyDown? j = false) : s.leastKeyDown = some k := by
  cases hl : s.leastKeyDown with
  | none =>
    have hup := s.leastKeyDown_eq_none_iff.1 hl k
    rw [hk] at hup
    cases hup
  | some j =>
    obtain ⟨hj, hjless⟩ := s.leastKeyDown_eq_some hl
    rcases Nat.lt_trichotomy j.toNat k.toNat with hlt | heq | hgt
    · rw [hless j hlt] at hj
      cases hj
    · exact congrArg some (BitVec.eq_of_toNat_eq heq)
    · rw [hjless k hgt] at hk
      cases hk

/-- Settles O49: the search finds `k`, whose number fits in a byte. -/
theorem waitForKeyTakesLeastKey : Obligations.WaitForKeyTakesLeastKey := by
  unfold Obligations.WaitForKeyTakesLeastKey
  intro x k s hk hless
  obtain ⟨t, he, hx, hpc, honly⟩ := exec_writesReg (exec_ldVxK_of_some x (State.leastKeyDown_of_least hk hless))
  have hlt : k.toNat < 16 := k.isLt
  refine ⟨t, he, ?_, hpc, honly⟩
  rw [hx, BitVec.toNat_ofNat]
  omega

theorem exec_ldVxK_of_up (x : Nibble) {s : State} (hup : ∀ k, s.keyDown? k = false) :
    exec (.ldVxK x) s = .next { s with signal := .none } :=
  exec_ldVxK_of_none x (s.leastKeyDown_eq_none_iff.2 hup)

/-- Settles O50: with every key up the advance is undone, so the next step fetches the same word from the same state. -/
theorem waitForKeyStaysPut : Obligations.WaitForKeyStaysPut := by
  unfold Obligations.WaitForKeyStaysPut
  refine ⟨fun x s => exec_ldVxK_of_up x, fun x s n hf hup => ?_⟩
  have hstep {u : State} (hf : u.fetch = some (encode (.ldVxK x))) (hup : ∀ k, u.keyDown? k = false) :
      step u = .next { u with signal := .none } :=
    (step_of_decode_some hf (decodeWord_encode _)).trans (exec_ldVxK_of_up x hup)
  exact run_of_step_fixed (hstep hf hup) (hstep (u := { s with signal := .none }) hf hup) n

end Sys2Proof.Machine
end

section
/-! PROOFS. The family of 44_memory_index.md section 3: the decimal digits, the two block transfers, and the transfers
that do not fit. -/
namespace Sys2Proof.Machine

/-! ### LD B (R184) -/

theorem bcdDigits_weighted_sum (b : Byte) :
    100 * (bcdDigits b)[0].toNat + 10 * (bcdDigits b)[1].toNat + (bcdDigits b)[2].toNat = b.toNat := by
  have hb : b.toNat < 256 := b.isLt
  simp [bcdDigits]
  omega

theorem bcdDigits_le_nine (b : Byte) (k : Nat) (hk : k < (bcdDigits b).length) : (bcdDigits b)[k].toNat ≤ 9 := by
  have hb : b.toNat < 256 := b.isLt
  rw [length_bcdDigits] at hk
  interval_cases k <;> simp [bcdDigits] <;> omega

/-! ### Stores (R184, R185) -/

/-- An instruction that advances and then stores bytes that fit from `a` on: they read back, and every other byte and
everything else is as before. -/
theorem exec_stores {i : Instr} {s : State} {a : Nat} {bs : List Byte}
    (he : exec i s = .next { s.advance with mem := Memory.writeList s.mem a bs }) (hw : Memory.wf s.mem = true)
    (hfit : a + bs.length ≤ 4096) :
    ∃ t, exec i s = .next t ∧ (∀ (k : Nat) (hk : k < bs.length), t.byteAt (a + k) = bs[k]) ∧
      SameMemOutside a bs.length s t ∧ t = { s with pc := s.pc + 2#16, mem := t.mem, signal := .none } :=
  ⟨_, he, fun _ hk => Memory.read_writeList_inside hw hfit hk, fun _ => Memory.read_writeList_outside, rfl⟩

/-- Settles O40: the bytes stored are the three digits. -/
theorem ldBStoresDecimalDigits : Obligations.LdBStoresDecimalDigits := by
  unfold Obligations.LdBStoresDecimalDigits
  intro x s hw hi
  obtain ⟨t, he, hin, hout, ht⟩ := exec_stores (exec_ldB_of_le x hi) hw (Nat.succ_le_succ hi)
  refine ⟨t, he, ?_, fun k hk => ?_, hout, ht⟩
  · have h0 : t.byteAt s.i.toNat = (bcdDigits (s.getV x))[0] := hin 0 (Nat.zero_lt_succ 2)
    rw [h0, hin 1 (by simp), hin 2 (by simp), bcdDigits_weighted_sum]
  · rw [hin k hk]
    exact bcdDigits_le_nine _ k hk

/-- Settles O41: byte `k` of the block is register `k`. -/
theorem blockStoreStoresRegisters : Obligations.BlockStoreStoresRegisters := by
  unfold Obligations.BlockStoreStoresRegisters
  intro x s hw hi
  have hfit : s.i.toNat + (s.blockOf x).length ≤ 4096 := by rw [length_blockOf]; omega
  obtain ⟨t, he, hin, hout, ht⟩ := exec_stores (exec_ldMemVx_of_le x hi) hw hfit
  rw [length_blockOf] at hout
  refine ⟨t, he, fun k hk => ?_, hout, ht⟩
  have hlt : k.toNat < (s.blockOf x).length := by rw [length_blockOf]; omega
  rw [hin k.toNat hlt, getElem_blockOf, BitVec.ofNat_toNat, BitVec.setWidth_eq]

/-! ### Loads (R186) -/

/-- Register `k` after a block load: the byte at I + k for the registers it reaches, its old value for the others. -/
theorem getV_setBlock_range (s : State) (f : Nat → Byte) (x k : Nibble) :
    (s.setBlock 0 ((List.range (x.toNat + 1)).map f)).getV k = if k.toNat ≤ x.toNat then f k.toNat else s.getV k := by
  have hx : x.toNat < 16 := x.isLt
  rw [State.setBlock_getV _ _ 0 (by simp; omega)]
  simp

/-- Settles O42: the registers that the load reaches and those above them. -/
theorem blockLoadLoadsRegisters : Obligations.BlockLoadLoadsRegisters := by
  unfold Obligations.BlockLoadLoadsRegisters
  intro x s hi
  refine ⟨_, exec_ldVxMem_of_le x hi, fun k hk => ?_, fun k hk => ?_, State.setBlock_eq _ _ _⟩
  · rw [getV_setBlock_range, if_pos hk]
  · rw [getV_setBlock_range, if_neg (Nat.not_le.2 hk), State.advance_getV]

/-- Settles O43: the load reads at the same address what the store put there. -/
theorem blockStoreThenLoadRestores : Obligations.BlockStoreThenLoadRestores := by
  unfold Obligations.BlockStoreThenLoadRestores
  intro x s t u r hw hi hstore hmem hui hload k hk
  obtain ⟨t', ht', hstored, -⟩ := blockStoreStoresRegisters x s hw hi
  obtain rfl : t = t' := Host.Outcome.next.inj (hstore.symm.trans ht')
  obtain ⟨r', hr', hloaded, -⟩ := blockLoadLoadsRegisters x u (by rw [hui]; exact hi)
  obtain rfl : r = r' := Host.Outcome.next.inj (hload.symm.trans hr')
  rw [hloaded k hk, hui, State.byteAt_of_mem hmem, hstored k hk]

/-! ### Transfers out of range (D11 to D13) -/

theorem packXI_opF (x : Nibble) (nn : Byte) :
    packXI 0xF x nn = BitVec.ofNat 16 (0xF000 + nn.toNat + 256 * x.toNat) := by
  unfold packXI
  congr 1
  omega

theorem outOfBoundsAt_of_encode {i : Instr} {w : Word} (h : encode i = w) (pc base : Word) :
    outOfBoundsAt pc i base = .outOfBounds pc (some w) (max base.toNat 4096) := by
  subst h
  rfl

/-- Settles O44: the bounds are those of the table of R245, and the words are the encodings. -/
theorem transfersOutOfRangeOnlySignal : Obligations.TransfersOutOfRangeOnlySignal := by
  unfold Obligations.TransfersOutOfRangeOnlySignal
  refine ⟨fun x s h => ?_, fun x s h => ?_, fun x s h => ?_, fun x y n s hn h => ?_⟩
  · have hr : Raises (.ldB x) s := Nat.le_of_add_le_add_right (b := 2) h
    exact exec_raisedOnly hr (outOfBoundsAt_of_encode (i := .ldB x) (packXI_opF x 0x33#8) s.pc s.i)
  · exact exec_raisedOnly (i := .ldMemVx x) h
      (outOfBoundsAt_of_encode (i := .ldMemVx x) (packXI_opF x 0x55#8) s.pc s.i)
  · exact exec_raisedOnly (i := .ldVxMem x) h
      (outOfBoundsAt_of_encode (i := .ldVxMem x) (packXI_opF x 0x65#8) s.pc s.i)
  · have hr : Raises (.drw x y n) s := ⟨hn, by omega⟩
    have hword : encode (.drw x y n) = BitVec.ofNat 16 (0xD000 + 256 * x.toNat + 16 * y.toNat + n.toNat) :=
      congrArg (BitVec.ofNat 16) (by omega)
    exact exec_raisedOnly hr (outOfBoundsAt_of_encode hword s.pc s.i)

end Sys2Proof.Machine
end

section
/-! PROOFS. The rest of the family of 47_drawing.md: the blit cell by cell, DRW, and the draws onto a clear and onto a
lit display. -/
namespace Sys2Proof.Machine

/-! ### The blit (R201) -/

/-- Settles O53: the cells of at most 15 rows are distinct, so each is flipped once and met as it was at the start. -/
theorem blitFlipsTheCoveredCells : Obligations.BlitFlipsTheCoveredCells := by
  unfold Obligations.BlitFlipsTheCoveredCells
  intro x0 y0 sp f hsp
  have hsp32 : sp.length ≤ 32 := hsp.trans (by decide)
  refine ⟨fun r c hr hc => ?_, ?_⟩
  · rw [← cellAt_drawSprite_eq_not_iff hsp32 f (⟨r, hr⟩, ⟨c, hc⟩), Bool.eq_not]
  · rw [collision_drawSprite hsp32]
    exact exists_cellPos_iff (P := fun r c => SpriteCovers x0 y0 sp r c ∧ cellAt f r c = true)

/-! ### DRW (R202) -/

theorem flagByte_beq_one (c : Bool) : (flagByte c == 1#8) = c := by cases c <;> rfl

/-- Settles O54: the range check holds, and DRW writes the display and VF alone. -/
theorem drwBlitsTheSpriteAtI : Obligations.DrwBlitsTheSpriteAtI := by
  unfold Obligations.DrwBlitsTheSpriteAtI
  intro x y n s hfit
  have hin : inRange s.i.toNat n.toNat = true := by rw [inRange_iff]; omega
  refine ⟨_, exec_drw_of_inRange x y hin, ?_, ?_, fun r hr => ?_, rfl⟩
  · rw [State.getV_setV_self, flagByte_beq_one]
    rfl
  · rw [State.getV_setV_self]
    exact flagByte_cases _
  · rw [State.getV_setV_ne _ _ (List.ne_of_not_mem_cons hr)]
    rfl

/-! ### Counting cells -/

/-- The number of cells that are on, over all cells at once. -/
theorem litCells_eq_card (f : Frame) :
    litCells f = (Finset.univ.filter fun p : CellPos => cellAt f p.1 p.2 = true).card := by
  have hrow (r : Nat) : ((List.range 64).filter fun c => cellAt f r c).length =
      ∑ c : Fin 64, if cellAt f r c = true then 1 else 0 := by
    rw [← Finset.sum_range fun c => if cellAt f r c = true then 1 else 0, ← Finset.card_filter]
    show _ = ((List.range 64).filter fun c => decide (cellAt f r c = true)).length
    simp only [Bool.decide_eq_true]
  have hsum : litCells f = ∑ r : Fin 32, ∑ c : Fin 64, if cellAt f r c = true then 1 else 0 := by
    rw [← Finset.sum_range fun r => ∑ c : Fin 64, if cellAt f r c = true then 1 else 0]
    simp only [← hrow]
    rfl
  rw [hsum, Finset.card_filter, Fintype.sum_prod_type]

/-- A row lights as many cells as its byte has set bits, which it lists from bit 7 down. -/
theorem length_rowCells (x0 y : Nat) (b : Byte) :
    (rowCells x0 y b).length = ((List.range 8).filter fun k => b.getLsbD k).length := by
  have hrev : (List.range 8).reverse = (List.range 8).map (7 - ·) := by decide
  rw [rowCells, List.length_map, ← List.length_reverse (as := (List.range 8).filter fun k => b.getLsbD k),
    ← List.filter_reverse, hrev, List.filter_map, List.length_map]
  rfl

theorem length_spriteCells (x0 y : Nat) (bs : List Byte) : (spriteCells x0 y bs).length = setBits bs := by
  induction bs generalizing y with
  | nil => rfl
  | cons b bs ih =>
    rw [spriteCells, List.length_append, ih, length_rowCells]
    rfl

/-- A sprite covers some cell exactly when it has a set bit. -/
theorem exists_spriteCovers_iff (x0 y0 : Nat) (sp : List Byte) :
    (∃ p : CellPos, SpriteCovers x0 y0 sp p.1 p.2) ↔ ∃ b ∈ sp, b ≠ 0#8 := by
  constructor
  · rintro ⟨p, r, c, hr, -, hbit, -⟩
    refine ⟨sp[r], List.getElem_mem hr, fun h => ?_⟩
    rw [h, BitVec.getLsbD_zero] at hbit
    cases hbit
  · rintro ⟨b, hb, hne⟩
    obtain ⟨r, hr, rfl⟩ := List.getElem_of_mem hb
    obtain ⟨k, hk⟩ : ∃ k, sp[r].getLsbD k = true := by
      by_contra! hall
      exact hne (BitVec.eq_of_getLsbD_eq fun k _ => by simpa using hall k)
    have hk8 : k < 8 := BitVec.lt_of_getLsbD hk
    have h7 : 7 - (7 - k) = k := by omega
    exact ⟨cellPos (y0 + r) (x0 + (7 - k)), r, 7 - k, hr, by omega, by rw [h7]; exact hk, rfl, rfl⟩

/-! ### Two draws (R203) -/

section
variable {x0 y0 : Nat} {sp : List Byte} (hsp : sp.length ≤ 32)
include hsp

/-- On a clear display the blit turns on the cells of the sprite, which are distinct. -/
theorem litCells_drawSprite_clearFrame : litCells (drawSprite x0 y0 sp clearFrame).1 = setBits sp := by
  have hcells : (Finset.univ.filter fun p : CellPos => cellAt (drawSprite x0 y0 sp clearFrame).1 p.1 p.2 = true) =
      (spriteCells x0 y0 sp).toFinset := by
    ext p
    rw [drawSprite_eq_foldl_plot, Finset.mem_filter, cellAt_foldl_plot (nodup_spriteCells x0 y0 hsp)]
    simp
  rw [litCells_eq_card, hcells, List.toFinset_card_of_nodup (nodup_spriteCells x0 y0 hsp), length_spriteCells]

theorem collision_drawSprite_clearFrame : (drawSprite x0 y0 sp clearFrame).2 = false := by
  rw [Bool.eq_false_iff, Ne, collision_drawSprite hsp]
  rintro ⟨p, -, hon⟩
  rw [cellAt_clearFrame] at hon
  cases hon

end

/-- Settles O57: on the clear display every covered cell is off before the first draw and on before the second. -/
theorem blitOnClearDisplayLightsItsBits : Obligations.BlitOnClearDisplayLightsItsBits := by
  unfold Obligations.BlitOnClearDisplayLightsItsBits
  intro x0 y0 sp hsp
  have hsp32 : sp.length ≤ 32 := hsp.trans (by decide)
  refine ⟨litCells_drawSprite_clearFrame hsp32, collision_drawSprite_clearFrame hsp32, ?_⟩
  rw [collision_drawSprite_twice hsp32, ← exists_spriteCovers_iff x0 y0]
  simp only [cellAt_clearFrame, and_true]

/-- Refutes O56: a single bit drawn onto the one cell that is on turns it off, and drawn again meets it off (log 34). -/
theorem not_secondIdenticalDrawAlwaysCollides : ¬ Obligations.SecondIdenticalDrawAlwaysCollides := by
  unfold Obligations.SecondIdenticalDrawAlwaysCollides
  intro h
  have hcollides := (h 0 0 [0x80#8] (toggleCell clearFrame 0 0) (by decide)).2
    ⟨0x80#8, List.mem_singleton_self _, by decide⟩
  exact absurd hcollides (by decide)

end Sys2Proof.Machine
end

section
/-! PROOFS. The family of 49_host_operations.md beside the key events: load, reset, the ticks and the framebuffer, what
every operation leaves, and the invariant of every reachable state. -/
namespace Sys2Proof.Machine

/-! ### Load (R226) -/

theorem State.loadImage_of_not_fits (s : State) {image : List Byte} (h : imageFits image = false) :
    s.loadImage image = none := by
  have hbig : ¬ 512 + image.length ≤ 4096 := by simpa [imageFits] using h
  exact s.store_of_outOfRange (inRange_eq_false (by omega) (by simp; omega))

/-- What a load does where it answers. -/
theorem State.eq_of_loadImage {s t : State} {image : List Byte} (h : s.loadImage image = some t) :
    imageFits image = true ∧ t = { s with mem := Memory.writeList s.mem Config.progBase image } := by
  cases hf : imageFits image with
  | false =>
    rw [s.loadImage_of_not_fits hf] at h
    cases h
  | true =>
    rw [s.loadImage_of_fits hf] at h
    exact ⟨rfl, (Option.some.inj h).symm⟩

theorem stateInv_of_loadImage {s t : State} {image : List Byte} (hs : StateInv s)
    (h : s.loadImage image = some t) : StateInv t := by
  obtain ⟨hw, hpc, hstk⟩ := hs
  obtain ⟨hf, rfl⟩ := State.eq_of_loadImage h
  exact ⟨Memory.wf_writeList (by simpa [imageFits] using hf) hw, hpc, hstk⟩

/-! ### The operations of a session -/

theorem stepWith_answers (b : Byte) (s : State) : ∃ t, stepWith b s = .next t := by
  obtain ⟨u, hu⟩ := stepAnswersInEveryState (s.giveByte b)
  exact ⟨u.dropBytes, (stepWith_eq_next_iff s b _).2 ⟨u, hu, rfl⟩⟩

section
variable {h : Session} {image : List Byte}

theorem Session.apply_step {b : Byte} {t : State} (ht : stepWith b h.state = .next t) :
    h.apply (.step b) = some ⟨t, false⟩ := by
  simp [Session.apply, ht, stateAfter]

theorem Session.apply_load_of_fresh {t : State} (hf : h.fresh = true) (ht : h.state.loadImage image = some t) :
    h.apply (.load image) = some ⟨t, true⟩ := by
  simp [Session.apply, hf, ht]

theorem Session.apply_load_of_not_fresh (hf : h.fresh = false) : h.apply (.load image) = none := by
  simp [Session.apply, hf]

theorem Session.apply_load_of_not_fits (hf : imageFits image = false) : h.apply (.load image) = none := by
  simp [Session.apply, h.state.loadImage_of_not_fits hf]

/-- A load that is admitted leaves what `loadImage` answers. -/
theorem Session.loadImage_of_apply {h' : Session} (ha : h.apply (.load image) = some h') :
    h.state.loadImage image = some h'.state := by
  cases hf : h.fresh with
  | false =>
    rw [Session.apply_load_of_not_fresh hf] at ha
    cases ha
  | true =>
    cases hl : h.state.loadImage image with
    | none => simp [Session.apply, hl] at ha
    | some t =>
      rw [Session.apply_load_of_fresh hf hl] at ha
      cases ha
      rfl

end

/-- Settles O58: a fitting image is one block of writes from 0x200 on, and each other operation is admitted by its own
equation of `Session.apply`. -/
theorem loadPlacesTheImage : Obligations.LoadPlacesTheImage := by
  unfold Obligations.LoadPlacesTheImage
  refine ⟨fun image s hw hf => ?_, fun h image hfresh hf => ?_, fun h image => Session.apply_load_of_not_fresh,
    fun h image => Session.apply_load_of_not_fits, fun h b => ?_, fun _ => rfl, fun _ => rfl, fun _ _ => rfl,
    fun _ _ => rfl⟩
  · have hl := s.loadImage_of_fits hf
    exact ⟨_, hl, fun k hk => State.byteAt_of_loadImage hw hf hl hk, fun a => Memory.read_writeList_outside, rfl⟩
  · have hl := h.state.loadImage_of_fits hf
    exact ⟨_, hl, Session.apply_load_of_fresh hfresh hl⟩
  · obtain ⟨t, ht⟩ := stepWith_answers b h.state
    exact ⟨t, ht, Session.apply_step ht⟩

/-- Settles O59: the reset of a session, by its definition. -/
theorem hostResetReinitialises : Obligations.HostResetReinitialises := by
  unfold Obligations.HostResetReinitialises
  exact fun h => ⟨_, rfl, rfl, rfl⟩

/-! ### The invariant of every reachable state -/

/-- Settles O12: a step keeps the invariant, which does not look at the byte it is given; a load writes inside memory;
reset restores it, and the other operations change nothing it speaks of. -/
theorem hostOperationsKeepInvariant : Obligations.HostOperationsKeepInvariant := by
  unfold Obligations.HostOperationsKeepInvariant
  intro h h' o hs ho
  cases o with
  | reset => cases ho; exact stateInv_reset
  | load image => exact stateInv_of_loadImage hs (Session.loadImage_of_apply ho)
  | step b =>
    obtain ⟨t, ht⟩ := stepWith_answers b h.state
    rw [Session.apply_step ht] at ho
    cases ho
    obtain ⟨u, hu, rfl⟩ := (stepWith_eq_next_iff h.state b t).1 ht
    have hinv : StateInv u := stepKeepsInvariant (h.state.giveByte b) u hs hu
    exact hinv
  | tick | keyDown | keyUp => cases ho; exact hs

theorem stateInv_of_run {ops : List HostOp} {h h' : Session} (hs : StateInv h.state) (hr : h.run ops = some h') :
    StateInv h'.state := by
  induction ops generalizing h with
  | nil => cases hr; exact hs
  | cons o os ih =>
    obtain ⟨k, hk, hr⟩ := Option.bind_eq_some_iff.1 hr
    exact ih (hostOperationsKeepInvariant h k o hs hk) hr

/-- Settles O13: the invariant holds at power-on and every operation keeps it; SP is at most 16 by its type. -/
theorem reachableStatesMeetInvariant : Obligations.ReachableStatesMeetInvariant := by
  unfold Obligations.ReachableStatesMeetInvariant
  exact fun ops h hr => ⟨stateInv_of_run stateInv_reset hr, Nat.le_of_lt_succ h.state.sp.isLt⟩

/-! ### Ticks (R222) -/

theorem toNat_countDown (b : Byte) : (countDown b).toNat = b.toNat - 1 := by
  unfold countDown
  split
  · next h => rw [h]; rfl
  · next h =>
    have hpos : b.toNat ≠ 0 := fun e => h (BitVec.eq_of_toNat_eq e)
    have hlt : b.toNat < 256 := b.isLt
    rw [BitVec.toNat_sub]
    simp
    omega

/-- Settles O47: by induction on the number of ticks, each of which takes one from a timer that is not zero. -/
theorem ticksCountDownToZero : Obligations.TicksCountDownToZero := by
  unfold Obligations.TicksCountDownToZero
  refine fun n s => ⟨_, rfl, ?_⟩
  induction n generalizing s with
  | zero => exact ⟨rfl, rfl, rfl⟩
  | succ n ih =>
    obtain ⟨hdt, hst, hrest⟩ := ih s.tickTimers
    rw [Function.iterate_succ_apply]
    refine ⟨?_, ?_, hrest⟩
    · rw [hdt, State.tickTimers_dt, toNat_countDown]
      omega
    · rw [hst, State.tickTimers_st, toNat_countDown]
      omega

/-! ### The framebuffer (R228) -/

/-- Settles O60: position `64 r + c` has quotient `r` and remainder `c` by the width of a row. -/
theorem framebufferIsRowMajor : Obligations.FramebufferIsRowMajor := by
  unfold Obligations.FramebufferIsRowMajor
  refine fun s => ⟨by simp [State.frameCells], fun r c hr hc => ?_⟩
  have hk : r * 64 + c < 2048 := by omega
  have hdiv : (r * 64 + c) / 64 = r := by omega
  have hmod : (r * 64 + c) % 64 = c := by omega
  simp [State.frameCells, cellAt, hk, hdiv, hmod, Nat.mod_eq_of_lt hc]

end Sys2Proof.Machine
end
